-- ==== Sys2Proof/Word.lean ====
section
/-! DEFINITION. The two widths of data of the block: a byte and a command word.
All arithmetic of the block is unsigned and modulo 256, which is `BitVec 8` addition (00_scope.md R7, R8). -/

namespace Sys2Proof

/-- A byte, an unsigned integer in 0..255 (00_scope.md R7). -/
abbrev Byte := BitVec 8

/-- A command word, 16 bits (30_encoding.md R70). -/
abbrev Word := BitVec 16

end Sys2Proof
end

