-- ==== Sys2Proof/Syntax.lean ====
section
/-! DEFINITION. The commands of DCC-1: one constructor per row of the opcode map (30_encoding.md R72, R73). -/

namespace Sys2Proof

/-- The six commands. A byte argument is the explicit operand `imm8`; all other operands are implicit (30_encoding.md R71). -/
inductive Instr where
  /-- `NOP`: do nothing (42_control.md R130). -/
  | nop
  /-- `KPUSH imm8`: append one key byte (40_key_schedule.md R90). -/
  | kpush (imm8 : Byte)
  /-- `KSCHED`: run the key schedule and start the keystream pass (40_key_schedule.md R94). -/
  | ksched
  /-- `CRYPT imm8`: process one message byte (41_keystream.md R112). -/
  | crypt (imm8 : Byte)
  /-- `FIN`: end the message (41_keystream.md R119). -/
  | fin
  /-- `RST`: soft reset (42_control.md R131). -/
  | rst
deriving DecidableEq, Repr

end Sys2Proof
end

