-- ==== Sys2Proof/WellFormed.lean ====
section
/-! DEFINITION. When the two fields of a format C word make a command, when an instruction is well formed, and when a key is a key. -/

namespace Sys2Proof

/-- The opcode numbers in use are 0x00 to 0x05; 0x06..0xFF are illegal (30_encoding.md R72, R74). -/
def opcodeInUse (op : Byte) : Bool :=
  decide (op.toNat ≤ 5)

/-- `imm8` is any byte for KPUSH (0x01) and CRYPT (0x03), and must be 0x00 for the commands without operand (30_encoding.md R71). -/
def operandInPlace (op imm8 : Byte) : Bool :=
  op == 0x01 || op == 0x03 || imm8 == 0x00

/-- The fields of a legal command word (30_encoding.md R74). -/
def wellFormedFields (op imm8 : Byte) : Bool :=
  opcodeInUse op && operandInPlace op imm8

/-- An instruction is well formed when the fields it stands for are (30_encoding.md R72).
No operand value is excluded: every byte 0x00..0xFF is accepted by KPUSH and CRYPT (40_key_schedule.md R90, 41_keystream.md R112). -/
def wellFormed : Instr → Bool
  | .nop => wellFormedFields 0x00 0x00
  | .kpush imm8 => wellFormedFields 0x01 imm8
  | .ksched => wellFormedFields 0x02 0x00
  | .crypt imm8 => wellFormedFields 0x03 imm8
  | .fin => wellFormedFields 0x04 0x00
  | .rst => wellFormedFields 0x05 0x00

/-- A key is a byte sequence of length at least 1 (40_key_schedule.md R96). -/
def wellFormedKey (key : List Byte) : Bool :=
  !key.isEmpty

end Sys2Proof
end

