-- ==== Sys2Proof/Decode.lean ====
section
/-! DEFINITION. The decoder, total on every word and on every list of bytes, refusing by name; and the encoder.
Both are written from the opcode map (30_encoding.md R72). -/

namespace Sys2Proof

/-- Why a word or a list of bytes is no command. -/
inductive DecodeError where
  /-- `op` is in 0x06..0xFF (30_encoding.md R74). -/
  | unusedOpcode
  /-- `op` takes no operand and `imm8` is not 0x00 (30_encoding.md R74). -/
  | operandNotZero
  /-- Fewer than two bytes are left of a serialised stream; R56 of 20_memory.md is silent on it (DESIGN CHOICE, log 12). -/
  | truncated
deriving DecidableEq, Repr

/-- One row of the opcode map: it selects a word `c` when `c AND mask = match` (30_encoding.md R72). -/
structure OpcodeRow where
  pattern : Word
  mask : Word
  command : Byte → Instr

/-- Field `op`, bits 15:8 (30_encoding.md R71). -/
def opField (c : Word) : Byte :=
  c.extractLsb' 8 8

/-- Field `imm8`, bits 7:0, taken as it stands (30_encoding.md R71). -/
def immField (c : Word) : Byte :=
  c.extractLsb' 0 8

/-- The word `{op, imm8}` (30_encoding.md R70, R78). -/
def wordOf (op imm8 : Byte) : Word :=
  op ++ imm8

/-- The six rows of the opcode map (30_encoding.md R72). -/
def opcodeMap : List OpcodeRow :=
  [ { pattern := 0x0000, mask := 0xFFFF, command := fun _ => .nop },
    { pattern := 0x0100, mask := 0xFF00, command := .kpush },
    { pattern := 0x0200, mask := 0xFFFF, command := fun _ => .ksched },
    { pattern := 0x0300, mask := 0xFF00, command := .crypt },
    { pattern := 0x0400, mask := 0xFFFF, command := fun _ => .fin },
    { pattern := 0x0500, mask := 0xFFFF, command := fun _ => .rst } ]

/-- The row selects the word (30_encoding.md R72). -/
def OpcodeRow.selects (r : OpcodeRow) (c : Word) : Bool :=
  c &&& r.mask == r.pattern

/-- The command of the first row that selects the word; every other word is illegal (30_encoding.md R72, R74). -/
def decode (c : Word) : Except DecodeError Instr :=
  match opcodeMap.find? fun r => r.selects c with
  | some r => .ok (r.command (immField c))
  | none => .error (if opcodeInUse (opField c) then .operandNotZero else .unusedOpcode)

/-- The opcode number of a command (30_encoding.md R72). -/
def opcodeOf : Instr → Byte
  | .nop => 0x00
  | .kpush _ => 0x01
  | .ksched => 0x02
  | .crypt _ => 0x03
  | .fin => 0x04
  | .rst => 0x05

/-- The operand byte of a command, 0x00 where it has none (30_encoding.md R71). -/
def operandOf : Instr → Byte
  | .kpush imm8 => imm8
  | .crypt imm8 => imm8
  | .nop | .ksched | .fin | .rst => 0x00

/-- The command word of a command (30_encoding.md R72). -/
def encode (i : Instr) : Word :=
  wordOf (opcodeOf i) (operandOf i)

/-- A word carried over a byte-wide link: the opcode byte first, then the operand byte (20_memory.md R56). -/
def serialise (c : Word) : List Byte :=
  [opField c, immField c]

/-- Decode the first command of a serialised stream; the answer holds the rest of the stream (20_memory.md R56). A single byte
is refused as truncated (DESIGN CHOICE, log 12). -/
def decodeBytes : List Byte → Except DecodeError (Instr × List Byte)
  | op :: imm8 :: rest =>
    match decode (wordOf op imm8) with
    | .ok i => .ok (i, rest)
    | .error e => .error e
  | [_] => .error .truncated
  | [] => .error .truncated

/-- Decode a whole serialised stream of commands, or say why its first illegal word is none (20_memory.md R56). R56 fixes the
order of the two bytes of a word only: that a stream which ends in a single byte, or holds an illegal word, is refused as a
whole is the model's choice (DESIGN CHOICE, log 12). The engine itself accepts words, one by one. -/
def decodeStream : List Byte → Except DecodeError (List Instr)
  | op :: imm8 :: rest =>
    match decode (wordOf op imm8) with
    | .error e => .error e
    | .ok i =>
      match decodeStream rest with
      | .error e => .error e
      | .ok is => .ok (i :: is)
  | [_] => .error .truncated
  | [] => .ok []

/-- The serialised stream of a list of commands (20_memory.md R56). -/
def encodeStream (is : List Instr) : List Byte :=
  is.flatMap fun i => serialise (encode i)

/-- The word that spec/opcode_table.json numbers `w`, of `nbits` bits; the bits above `nbits` are 0. -/
def tableWord (nbits w : Nat) : Word :=
  BitVec.ofNat 16 (w % 2 ^ nbits)

/-- What the decoder reads from the bytes of a table row's word, laid out as the hardware serialises them (20_memory.md R56). -/
def decodeTableWord (nbits w : Nat) : Option Instr :=
  match decodeBytes (serialise (tableWord nbits w)) with
  | .ok (i, _) => some i
  | .error _ => none

end Sys2Proof
end

