-- ==== Sys2Proof/Config.lean ====
section
/-! DEFINITION. What is fixed for the machine, and the free values: choices the spec leaves open, as constants without a
body, of which no proof can know a value. -/

namespace Sys2Proof.Config

/-- `N`, the number of entries of `S` (00_scope.md R6). -/
def entries : Nat := 256

/-- The depth of the key buffer `K`, where KLEN saturates (00_scope.md R6, 10_state.md R28). -/
def keyDepth : Nat := 256

/-- The step width `w`, hardwired to 1 (10_state.md R26). -/
def stepWidth : Byte := 1

/-- The accumulator `j` before iteration 0 of the key schedule (40_key_schedule.md R93, R94 line 3).
PRESUMED by the spec itself, which takes 0 from general knowledge of RC4 (92_eei_decisions.md D12, log 6). -/
def accumulatorStart : Byte := 0

/-- `NINST`, the number of engine instances, in its default (00_scope.md R6). `Platform n` takes any number. -/
def ninst : Nat := 1

/-- FREE VALUE: whether a byte that a cut-off command would emit was emitted before a hardware reset took effect
(70_reset_and_hazards.md R191). The argument is the counter `State.free` and no engine: that two engines of a platform with
equal counters take the same choice is the model's (DESIGN CHOICE, unsafe, log 10). -/
opaque abandonedByteEmitted : Nat → Bool

/-- FREE VALUE: how many of the bytes that stood on the output port at the instant of a hardware reset the host still
receives, the oldest first (70_reset_and_hazards.md R190). The rule speaks of "a byte"; that the port may hold several, and
that any number of them may still be received, is the model's choice (DESIGN CHOICE, log 3). The argument is the counter
`State.free` and no engine: two engines with equal counters take the same choice (DESIGN CHOICE, unsafe, log 10). -/
opaque portBytesReceived : Nat → Nat

/-- FREE VALUE: the byte at an index of the expansion of the empty key, to which the spec gives no value: a key of length 0 is
not a key (40_key_schedule.md R96) and `mod 0` is not defined (00_scope.md R8). No step of the machine reads it (log 13). -/
opaque emptyKeyExpansion : Byte → Byte

end Sys2Proof.Config
end

