-- ==== Sys2Proof/Machine/State.lean ====
section
/-! DEFINITION. The state of one engine, of its boundary and of what the host has still to do; why a step can stop; reset.
10_state.md R20 to R39, 20_memory.md R50. -/

namespace Sys2Proof.Machine

/-- The contents of one of the two byte spaces `S` and `K` (20_memory.md R50): cells of strictly rising address, each address
below 256, no cell of value 0. An address that is not listed reads as 0, the reset contents of both spaces (10_state.md R37). -/
abbrev Memory := List Host.Cell

/-- The phase register `PH` (10_state.md R31). -/
inductive Phase where
  /-- `PH = 0`: no permutation is held; key bytes may be pushed. -/
  | idle
  /-- `PH = 1`: `S` is keyed and the cursors are live. -/
  | ready
deriving DecidableEq, Repr

/-- What the host does to the engine, in the order it does it (00_scope.md R11, log 1). -/
inductive HostAction where
  /-- The host presents a command word on the command port and the engine accepts it (30_encoding.md R70). -/
  | command (c : Word)
  /-- Hardware reset between two commands, asserted and released (70_reset_and_hazards.md R190, log 2). -/
  | reset
  /-- Hardware reset asserted while the engine executes the word it has accepted (70_reset_and_hazards.md R191, log 3). -/
  | resetDuring (c : Word)
  /-- The host takes a byte from the output port (20_memory.md R59, log 5). -/
  | takeByte
deriving DecidableEq, Repr

/-- The output history that a hardware reset has closed (70_reset_and_hazards.md R190). -/
structure PastOutput where
  /-- The bytes emitted in that history, oldest first. -/
  bytes : List Byte
  /-- How many of them, from the front, the host received. -/
  received : Nat
deriving DecidableEq, Repr

structure State where
  /-- The permutation state (10_state.md R20). -/
  S : Memory
  /-- The key buffer (10_state.md R27). -/
  K : Memory
  /-- Cursor `x[0]` (10_state.md R24). -/
  i : Byte
  /-- Cursor `x[1]`. -/
  j : Byte
  /-- Cursor `x[2]`. -/
  k : Byte
  /-- Cursor `x[3]`. -/
  z : Byte
  /-- `KLEN`, the number of key bytes pushed, saturating at 256 (10_state.md R28). -/
  klen : BitVec 9
  /-- `PH` (10_state.md R31). -/
  ph : Phase
  /-- `ERR`, the sticky fault flags: bit 0 EKEY, bit 1 ESEQ, bit 2 ECMD (10_state.md R32). -/
  err : BitVec 3
  /-- `OUT`, every byte emitted since the last hardware reset, oldest first (10_state.md R33). -/
  out : List Byte
  /-- How many bytes of `OUT`, from the front, the host has taken from the output port (20_memory.md R59). -/
  taken : Nat
  /-- The histories closed by earlier hardware resets, newest first (70_reset_and_hazards.md R190). -/
  past : List PastOutput
  /-- What the host is still to do, the next act first: the command stream with the other inputs (20_memory.md R50, log 1). -/
  host : List HostAction
  /-- The MODEL's own counter of free values read (log 4). -/
  free : Nat
deriving DecidableEq, Repr

/-- Why the machine would stop with a fault: for no reason. The three faults of the block are sticky flags whose entry is a
next state (60_exceptions.md R166); no index is out of range and no other input is invalid (R164, R165, log 9). -/
inductive Fault where
deriving DecidableEq, Repr

/-- Why a step would have no meaning. -/
inductive Refusal where
  /-- Raised by an arm of `exec` for a command that has no meaning yet (no arm does). Safe. -/
  | notModelled (mnemonic : String)
deriving DecidableEq, Repr

/-- The machine right after hardware reset (10_state.md R37, 70_reset_and_hazards.md R190): the host has sent nothing yet. -/
def State.reset : State where
  S := []
  K := []
  i := 0
  j := 0
  k := 0
  z := 0
  klen := 0
  ph := .idle
  err := 0
  out := []
  taken := 0
  past := []
  host := []
  free := 0

/-- `S <- m`, as a whole. -/
def State.setS (s : State) (m : Memory) : State := { s with S := m }
/-- `K <- m`, as a whole. -/
def State.setKeys (s : State) (m : Memory) : State := { s with K := m }
/-- `i <- v`. -/
def State.setI (s : State) (v : Byte) : State := { s with i := v }
/-- `j <- v`. -/
def State.setJ (s : State) (v : Byte) : State := { s with j := v }
/-- `k <- v`. -/
def State.setK (s : State) (v : Byte) : State := { s with k := v }
/-- `z <- v`. -/
def State.setZ (s : State) (v : Byte) : State := { s with z := v }
/-- `KLEN <- v`. -/
def State.setKlen (s : State) (v : BitVec 9) : State := { s with klen := v }
/-- `PH <- p`. -/
def State.setPh (s : State) (p : Phase) : State := { s with ph := p }
/-- `ERR <- v`. -/
def State.setErr (s : State) (v : BitVec 3) : State := { s with err := v }
/-- `OUT <- l`. -/
def State.setOut (s : State) (l : List Byte) : State := { s with out := l }
/-- The host has taken `n` bytes. -/
def State.setTaken (s : State) (n : Nat) : State := { s with taken := n }
/-- The closed histories are `l`. -/
def State.setPast (s : State) (l : List PastOutput) : State := { s with past := l }
/-- What the host is still to do is `l`. -/
def State.setHost (s : State) (l : List HostAction) : State := { s with host := l }
/-- `n` free values have been read. -/
def State.setFree (s : State) (n : Nat) : State := { s with free := n }

end Sys2Proof.Machine
end

