-- ==== Sys2Proof/Machine/Flags.lean ====
section
/-! DEFINITION. The fault flags `ERR`, the three faults and their codes, and what the host can see: `STATUS` and `fault`.
There are no arithmetic flags (10_state.md R32). -/

namespace Sys2Proof.Machine

/-- The three faults of the block (60_exceptions.md R160). -/
inductive EngineFault where
  | invalidKey
  | badSequence
  | illegalCommand
deriving DecidableEq, Repr

/-- The code of a fault, the index of its flag in `ERR` (60_exceptions.md R160). -/
def EngineFault.code : EngineFault → Nat
  | .invalidKey => 0
  | .badSequence => 1
  | .illegalCommand => 2

/-- `ERR[e] <- 1` (60_exceptions.md R166). -/
def setFlag (err : BitVec 3) (e : EngineFault) : BitVec 3 :=
  err ||| (1 <<< e.code)

/-- The value of the flag of a fault. -/
def State.flag (s : State) (e : EngineFault) : Bool :=
  s.err.getLsbD e.code

/-- Faulted: `ERR != 0` (00_scope.md glossary, 30_encoding.md R75). -/
def State.faulted (s : State) : Bool :=
  s.err != 0

/-- The bit that `PH` is: IDLE 0, READY 1 (10_state.md R31). -/
def Phase.bit : Phase → BitVec 1
  | .idle => 0
  | .ready => 1

/-- `STATUS`, driven continuously: bit 0 is PH, bits 3:1 are ERR, bits 7:4 are 0 (10_state.md R34). -/
def State.status (s : State) : Byte :=
  (0 : BitVec 4) ++ s.err ++ s.ph.bit

/-- The `fault` line, 1 exactly when `ERR != 0` (10_state.md R34, 60_exceptions.md R171). -/
def State.faultLine (s : State) : BitVec 1 :=
  if s.faulted then 1 else 0

/-- The bytes that stand on the output port: emitted and not yet taken by the host (20_memory.md R59, 70_reset_and_hazards.md R205). -/
def State.onPort (s : State) : List Byte :=
  s.out.drop s.taken

end Sys2Proof.Machine
end

