-- ==== Sys2Proof/Machine/Ops.lean ====
section
/-! DEFINITION. The named operations over the two byte spaces and the registers; taking a fault and leaving it;
the phase table. 00_scope.md R8 to R10, 10_state.md R36, 60_exceptions.md R166, 30_encoding.md R76. -/

namespace Sys2Proof.Machine

/-! ## The byte spaces -/

/-- What an address that is not listed reads as: the reset contents of `S` and `K` (10_state.md R37). -/
def Memory.unlisted : Byte := 0

/-- Both spaces have the indices 0..255 (20_memory.md R50). -/
def Memory.size : Nat := Config.entries

/-- The canonical form: strictly rising addresses, all below 256, no cell that reads as an unlisted address does. -/
abbrev Memory.wf (m : Memory) : Prop :=
  m.Pairwise (fun x y => x.1 < y.1) ∧ ∀ c ∈ m, c.1 < Memory.size ∧ c.2 ≠ Memory.unlisted

/-- The byte at a numbered address. -/
def Memory.readAt : Memory → Nat → Byte
  | [], _ => Memory.unlisted
  | (b, v) :: rest, a => if b = a then v else Memory.readAt rest a

/-- `S[a]`, `K[a]`: the entry a byte indexes; every byte is a valid index (00_scope.md R9, 20_memory.md R51). -/
def Memory.read (m : Memory) (a : Byte) : Byte :=
  m.readAt a.toNat

/-- A cell, or none where it would read as an unlisted address does. -/
def Memory.cell (a : Nat) (v : Byte) (rest : Memory) : Memory :=
  if v = Memory.unlisted then rest else (a, v) :: rest

/-- The byte at a numbered address becomes `v`, every other byte stays; the form stays canonical. -/
def Memory.writeAt : Memory → Nat → Byte → Memory
  | [], a, v => Memory.cell a v []
  | (b, w) :: rest, a, v =>
    if a < b then Memory.cell a v ((b, w) :: rest)
    else if a = b then Memory.cell a v rest
    else (b, w) :: Memory.writeAt rest a v

/-- `S[a] <- v`, `K[a] <- v` (00_scope.md R9). -/
def Memory.write (m : Memory) (a v : Byte) : Memory :=
  m.writeAt a.toNat v

/-- `swap(S, a, b)`: `t <- S[a]; S[a] <- S[b]; S[b] <- t`, in this order, with a temporary (00_scope.md R9). -/
def Memory.swap (m : Memory) (a b : Byte) : Memory :=
  let t := m.read a
  let m' := m.write a (m.read b)
  m'.write b t

/-- The bytes 0 to 255, ascending. Irreducible, so that no proof unrolls a loop over it by accident; the kernel still evaluates it. -/
@[irreducible] def allBytes : List Byte :=
  (List.range 256).map (BitVec.ofNat 8)

/-- `for n from 0 to 255: S[n] <- n` (40_key_schedule.md R94 line 2). -/
def Memory.fillIdentity (m : Memory) : Memory :=
  allBytes.foldl (fun m n => m.write n n) m

/-- `for every n: S[n] <- 0`: the space with nothing listed (10_state.md R36, 40_key_schedule.md R94 line 8). -/
def Memory.zero : Memory := []

/-- The entries in the order of their index. -/
def Memory.entries (m : Memory) : List Byte :=
  allBytes.map m.read

/-- A permutation of 0..255: the multiset of values equals the multiset of 0..255 (10_state.md R22). -/
abbrev Memory.isPermutation (m : Memory) : Prop :=
  m.entries.Perm allBytes

/-! ## Zeroisation, faults and resets -/

/-- `Zeroize()`: `S`, `K`, the cursors and KLEN become 0; PH, ERR and OUT stay (10_state.md R36). -/
def zeroize (s : State) : State :=
  (((((((s.setS Memory.zero).setKeys Memory.zero).setI 0).setJ 0).setK 0).setZ 0).setKlen 0)

/-- Fault entry, `raise e`: zeroise, `PH <- IDLE`, `ERR[e] <- 1`. There is no handler, no vector and no saved state; control
does not go anywhere (60_exceptions.md R166). -/
def raise (e : EngineFault) (s : State) : State :=
  let s' := (zeroize s).setPh .idle
  s'.setErr (setFlag s'.err e)

/-- The way out of a fault that a command gives: zeroise, `PH <- IDLE`, `ERR <- 0b000`; OUT stays
(42_control.md R131, 60_exceptions.md R168). -/
def softReset (s : State) : State :=
  ((zeroize s).setPh .idle).setErr 0

/-- Hardware reset: the state of 10_state.md R37, and OUT begins a new history (70_reset_and_hazards.md R190). What was
emitted is kept in `past`; how many of the bytes that stood on the output port the host still receives, none to all of them,
oldest first, is a free value: the spec leaves it open for "a byte" and the model for each (DESIGN CHOICE, log 3).
The reset does not touch what the host is still to do. -/
def hardwareReset (s : State) : State :=
  let late := min (Config.portBytesReceived s.free) s.onPort.length
  let closed : PastOutput := { bytes := s.out, received := s.taken + late }
  ((((softReset s).setOut []).setTaken 0).setPast (closed :: s.past)).setFree (s.free + 1)

/-- `OUT <- OUT ++ [v]` (00_scope.md R10). -/
def emit (v : Byte) (s : State) : State :=
  s.setOut (s.out ++ [v])

/-- The host takes the oldest byte from the output port, where one stands; OUT is the whole history and does not change
(20_memory.md R59). -/
def takeFromPort (s : State) : State :=
  if s.onPort.isEmpty then s else s.setTaken (s.taken + 1)

/-! ## Legality -/

/-- The phase table (30_encoding.md R76): whether a command is legal in a phase of an engine that is not faulted. -/
def legalIn : Instr → Phase → Bool
  | .nop, .idle => true
  | .nop, .ready => true
  | .kpush _, .idle => true
  | .kpush _, .ready => false
  | .ksched, .idle => true
  | .ksched, .ready => false
  | .crypt _, .idle => false
  | .crypt _, .ready => true
  | .fin, .idle => false
  | .fin, .ready => true
  | .rst, .idle => true
  | .rst, .ready => true

/-- What every command but RST does around its body: a faulted engine drops it (30_encoding.md R75 step 2), a wrong phase raises
BadSequence (step 4), else the body runs (step 5). -/
def guarded (i : Instr) (body : State → State) (s : State) : State :=
  if s.faulted then s
  else if legalIn i s.ph then body s
  else raise .badSequence s

end Sys2Proof.Machine
end

