-- ==== Sys2Proof/Machine/Control.lean ====
section
/-! DEFINITION. The control family, `NOP` and `RST`. 42_control.md. -/

namespace Sys2Proof.Machine

/-- The body of NOP: no state changes, nothing is appended to OUT (42_control.md R130). -/
def nopBody (s : State) : State := s

/-- `NOP` (42_control.md R130); when faulted it is dropped, which is the same. -/
def execNop (s : State) : Host.Outcome State Fault Refusal :=
  .next (guarded .nop nopBody s)

/-- `RST`, executed in every state, also when faulted (42_control.md R131, 30_encoding.md R75 step 1). -/
def execRst (s : State) : Host.Outcome State Fault Refusal :=
  .next (softReset s)

end Sys2Proof.Machine
end

