-- ==== Sys2Proof/Machine/Operands.lean ====
section
/-! DEFINITION. The operand forms: the cursors by number, the six index forms into `S`, the two index forms into `K`.
The explicit operand `imm8` is the byte in the instruction. 10_state.md R24, 20_memory.md R51, R52. -/

namespace Sys2Proof.Machine

/-- `x[n]`, the cursors by number: `x[0] = i`, `x[1] = j`, `x[2] = k`, `x[3] = z` (10_state.md R24). -/
def State.x (s : State) (n : Fin 4) : Byte :=
  match n with
  | 0 => s.i
  | 1 => s.j
  | 2 => s.k
  | 3 => s.z

/-- Index form `i` (20_memory.md R51). -/
def indexI (s : State) : Byte := s.i

/-- Index form `j` (20_memory.md R51). -/
def indexJ (s : State) : Byte := s.j

/-- Index form `(j + S[i]) mod 256` (20_memory.md R51). -/
def indexJPlusSI (s : State) : Byte := s.j + s.S.read (indexI s)

/-- Index form `(z + k) mod 256` (20_memory.md R51). -/
def indexZPlusK (s : State) : Byte := s.z + s.k

/-- Index form `(i + S[(z + k) mod 256]) mod 256` (20_memory.md R51). -/
def indexIPlusS (s : State) : Byte := s.i + s.S.read (indexZPlusK s)

/-- Index form `(j + S[(i + S[(z + k) mod 256]) mod 256]) mod 256`, three dependent reads with the read it serves (20_memory.md R51). -/
def indexJPlusS (s : State) : Byte := s.j + s.S.read (indexIPlusS s)

/-- The index at which KPUSH writes `K`: KLEN, below 256 where it writes (20_memory.md R52). -/
def indexKlen (s : State) : Byte := s.klen.setWidth 8

/-- The index at which KSCHED reads `K`: `i mod KLEN`, with KLEN at least 1 (20_memory.md R52). -/
def indexIModKlen (s : State) : Byte := BitVec.ofNat 8 (s.i.toNat % s.klen.toNat)

end Sys2Proof.Machine
end

