-- ==== Sys2Proof/Machine/KeySchedule.lean ====
section
/-! DEFINITION. The KeySchedule family, `KPUSH` and `KSCHED`, and the key schedule as a pure function. 40_key_schedule.md. -/

namespace Sys2Proof.Machine

/-! ## KPUSH -/

/-- The body of KPUSH (40_key_schedule.md R90); at `KLEN = 256` nothing changes (R91). -/
def kpushBody (imm8 : Byte) (s : State) : State :=
  if s.klen.toNat < Config.keyDepth then
    (s.setKeys (s.K.write (indexKlen s) imm8)).setKlen (s.klen + 1)
  else s

/-- `KPUSH imm8` (40_key_schedule.md R90). -/
def execKpush (imm8 : Byte) (s : State) : Host.Outcome State Fault Refusal :=
  .next (guarded (.kpush imm8) (kpushBody imm8) s)

/-! ## KSCHED -/

/-- Lines 5 to 7 of R94: one iteration, with the loop index in `i` and the accumulator in `j`. -/
def kschedIteration (s : State) (c : Byte) : State :=
  let s₅ := s.setI c
  let s₆ := s₅.setJ (s₅.j + s₅.S.read (indexI s₅) + s₅.K.read (indexIModKlen s₅))
  s₆.setS (s₆.S.swap (indexI s₆) (indexJ s₆))

/-- Lines 2 to 7 of R94: the identity, the accumulator's start, 256 iterations in ascending order. Irreducible, so that no
proof unrolls it by accident; the kernel still evaluates it. -/
@[irreducible] def kschedLoop (s : State) : State :=
  allBytes.foldl kschedIteration ((s.setS s.S.fillIdentity).setJ Config.accumulatorStart)

/-- Lines 8 to 11 of R94: the key is not retained, the cursors start the pass, `PH <- READY`. -/
def kschedFinish (s : State) : State :=
  ((((((s.setKeys Memory.zero).setKlen 0).setI 0).setJ 0).setK 0).setZ 0).setPh .ready

/-- The body of KSCHED (40_key_schedule.md R94); line 1 raises InvalidKey for the empty key (R96). -/
def kschedBody (s : State) : State :=
  if s.klen = 0 then raise .invalidKey s
  else kschedFinish (kschedLoop s)

/-- `KSCHED` (40_key_schedule.md R94). -/
def execKsched (s : State) : Host.Outcome State Fault Refusal :=
  .next (guarded .ksched kschedBody s)

/-! ## The pure function -/

/-- `ksa_iter(S, j, i, kb)` (40_key_schedule.md R95). -/
def ksaIter (S : Memory) (j i kb : Byte) : Memory × Byte :=
  let j' := j + S.read i + kb
  (S.swap i j', j')

/-- The expansion of a key: `e[i] = key[i mod keylen]` (40_key_schedule.md R98). The spec gives none to the empty list, which is
not a key (R96); there every entry is a free value (DESIGN CHOICE, log 13), so that it is no substitute key (70 R201). -/
def keyExpansion (key : List Byte) (i : Byte) : Byte :=
  key.getD (i.toNat % key.length) (Config.emptyKeyExpansion i)

/-- The key schedule for a key given by its expansion (40_key_schedule.md R98, R100). Irreducible, as `kschedLoop` is. -/
@[irreducible] def ksaOfExpansion (e : Byte → Byte) : Memory :=
  (allBytes.foldl (fun p c => ksaIter p.1 p.2 c (e c)) (Memory.zero.fillIdentity, Config.accumulatorStart)).1

/-- `ksa(key)` for a non-empty key (40_key_schedule.md R100); of the empty list it is unknown (log 13). -/
def ksa (key : List Byte) : Memory :=
  ksaOfExpansion (keyExpansion key)

/-- The key that the buffer holds: `K[0]` to `K[KLEN-1]` (40_key_schedule.md R92). -/
def bufferedKey (s : State) : List Byte :=
  (List.range s.klen.toNat).map s.K.readAt

end Sys2Proof.Machine
end

