-- ==== Sys2Proof/Machine/Keystream.lean ====
section
/-! DEFINITION. The KeystreamCipher family, `CRYPT` and `FIN`, and the keystream step as a pure function. 41_keystream.md. -/

namespace Sys2Proof.Machine

/-! ## CRYPT, line by line (41_keystream.md R112); each line reads what the line before left (R113) -/

/-- `1. i <- (i + w) mod 256`. -/
def cryptLine1 (s : State) : State := s.setI (s.i + Config.stepWidth)

/-- `2. j <- (k + S[(j + S[i]) mod 256]) mod 256`. -/
def cryptLine2 (s : State) : State := s.setJ (s.k + s.S.read (indexJPlusSI s))

/-- `3. k <- (i + k + S[j]) mod 256`. -/
def cryptLine3 (s : State) : State := s.setK (s.i + s.k + s.S.read (indexJ s))

/-- `4. swap(S, i, j)`. -/
def cryptLine4 (s : State) : State := s.setS (s.S.swap (indexI s) (indexJ s))

/-- `5. z <- S[(j + S[(i + S[(z + k) mod 256]) mod 256]) mod 256]`. -/
def cryptLine5 (s : State) : State := s.setZ (s.S.read (indexJPlusS s))

/-- `6. OUT <- OUT ++ [imm8 ^ z]`. -/
def cryptLine6 (imm8 : Byte) (s : State) : State := emit (imm8 ^^^ s.z) s

/-- Lines 1 to 5, which do not read the message byte (41_keystream.md R117). -/
def cryptAdvance (s : State) : State :=
  cryptLine5 (cryptLine4 (cryptLine3 (cryptLine2 (cryptLine1 s))))

/-- The body of CRYPT (41_keystream.md R112). -/
def cryptBody (imm8 : Byte) (s : State) : State :=
  cryptLine6 imm8 (cryptAdvance s)

/-- `CRYPT imm8` (41_keystream.md R112). -/
def execCrypt (imm8 : Byte) (s : State) : Host.Outcome State Fault Refusal :=
  .next (guarded (.crypt imm8) (cryptBody imm8) s)

/-! ## FIN -/

/-- The body of FIN: zeroise, `PH <- IDLE`; ERR and OUT stay (41_keystream.md R119). -/
def finBody (s : State) : State :=
  (zeroize s).setPh .idle

/-- `FIN` (41_keystream.md R119). -/
def execFin (s : State) : Host.Outcome State Fault Refusal :=
  .next (guarded .fin finBody s)

/-! ## The pure function -/

/-- What the keystream step reads and writes: `S` and the four cursors (41_keystream.md R111). -/
structure Cipher where
  S : Memory
  i : Byte
  j : Byte
  k : Byte
  z : Byte
deriving DecidableEq, Repr

/-- `ksg_step(S, i, j, k, z) = (S', i', j', k', z')` (41_keystream.md R111). -/
def ksgStep (c : Cipher) : Cipher :=
  let i' := c.i + 1
  let j' := c.k + c.S.read (c.j + c.S.read i')
  let k' := i' + c.k + c.S.read j'
  let S' := c.S.swap i' j'
  let z' := S'.read (j' + S'.read (i' + S'.read (c.z + k')))
  { S := S', i := i', j := j', k := k', z := z' }

/-- The part of the state that the keystream step works on. -/
def State.cipher (s : State) : Cipher :=
  { S := s.S, i := s.i, j := s.j, k := s.k, z := s.z }

end Sys2Proof.Machine
end

