-- ==== Sys2Proof/Machine/Dispatch.lean ====
section
/-! DEFINITION. One arm per command (30_encoding.md R73). -/

namespace Sys2Proof.Machine

def exec (i : Instr) (s : State) : Host.Outcome State Fault Refusal :=
  match i with
  | .nop => Sys2Proof.Machine.execNop s
  | .kpush imm8 => Sys2Proof.Machine.execKpush imm8 s
  | .ksched => Sys2Proof.Machine.execKsched s
  | .crypt imm8 => Sys2Proof.Machine.execCrypt imm8 s
  | .fin => Sys2Proof.Machine.execFin s
  | .rst => Sys2Proof.Machine.execRst s

end Sys2Proof.Machine
end

