-- ==== Sys2Proof/Machine/Accept.lean ====
section
/-! DEFINITION. What the engine does with a word it accepts, and with each act of the host. 30_encoding.md R75,
70_reset_and_hazards.md R190, R191. -/

namespace Sys2Proof.Machine

/-- A word that matches no row of the opcode map: dropped when faulted (30_encoding.md R75 step 2), else it raises
IllegalCommand (step 3, 60_exceptions.md R163). -/
def acceptIllegal (s : State) : State :=
  if s.faulted then s else raise .illegalCommand s

/-- `accept(c)` (00_scope.md R10, 30_encoding.md R75). The drop of a faulted engine and the phase check stand in the command's
meaning, so a legal word is its command's meaning and nothing else. -/
def accept (c : Word) (s : State) : Host.Outcome State Fault Refusal :=
  match decode c with
  | .ok i => exec i s
  | .error _ => .next (acceptIllegal s)

/-- `OUT` at the instant a hardware reset cuts off the command `c`: a byte the command would emit was emitted or not, a free
value (70_reset_and_hazards.md R191, log 3). -/
def outAtCutOff (c : Word) (s : State) : List Byte :=
  match accept c s with
  | .next s' => if Config.abandonedByteEmitted s.free then s'.out else s.out
  | .fault _ => s.out
  | .refused _ => s.out

/-- Hardware reset while the command `c` executes: the command is abandoned and the state is the reset state whatever it was
(70_reset_and_hazards.md R191). -/
def resetDuringCommand (c : Word) (s : State) : State :=
  hardwareReset ((s.setOut (outAtCutOff c s)).setFree (s.free + 1))

/-- One act of the host. -/
def perform (a : HostAction) (s : State) : Host.Outcome State Fault Refusal :=
  match a with
  | .command c => accept c s
  | .reset => .next (hardwareReset s)
  | .resetDuring c => .next (resetDuringCommand c s)
  | .takeByte => .next (takeFromPort s)

/-- The host's next act; where there is none the engine waits and holds its state (60_exceptions.md R183, 70_reset_and_hazards.md R190). -/
def nextAct (s : State) : Host.Outcome State Fault Refusal :=
  match s.host with
  | [] => .next s
  | a :: rest => perform a (s.setHost rest)

/-- The host presents a word before everything else it is still to do. -/
def presentFirst (c : Word) (s : State) : State :=
  s.setHost (.command c :: s.host)

end Sys2Proof.Machine
end

