-- ==== Sys2Proof/Machine/Step.lean ====
section
/-! DEFINITION. One step: the engine meets the host's next act. There is no program counter and no fetch; a command word comes
from the command port (10_state.md R30). -/

namespace Sys2Proof.Machine

/-- One step (20_memory.md R58: a command is one indivisible step). -/
def step (s : State) : Host.Outcome State Fault Refusal :=
  nextAct s

/-- The state in which the very next step accepts the word of `nbits` bits that spec/opcode_table.json numbers `w`. It stands
for the host presenting that word on the command port (log 1). -/
def State.withFetchWord (s : State) (nbits w : Nat) : State :=
  presentFirst (tableWord nbits w) s

end Sys2Proof.Machine
end

