-- ==== Sys2Proof/Machine/Transform.lean ====
section
/-! DEFINITION. The composite operation `transform` (43_transform.md): the command sequence of one call, what it gives on the
machine, and the pure function. -/

namespace Sys2Proof.Machine

/-- The commands of one call: the key bytes, KSCHED, the message bytes, FIN (43_transform.md R140). -/
def callCommands (key message : List Byte) : List Instr :=
  key.map .kpush ++ [.ksched] ++ message.map .crypt ++ [.fin]

/-- The words of one call (43_transform.md R140). -/
def callWords (key message : List Byte) : List Word :=
  (callCommands key message).map encode

/-- The engine accepts the words in the order given (20_memory.md R62). -/
def acceptAll : List Word → State → Host.Outcome State Fault Refusal
  | [], s => .next s
  | c :: rest, s =>
    match accept c s with
    | .next s' => acceptAll rest s'
    | .fault r => .fault r
    | .refused r => .refused r

/-- `(S_0, i_0, j_0, k_0, z_0) = (ksa(key), 0, 0, 0, 0)` (43_transform.md R141). -/
def Cipher.start (key : List Byte) : Cipher :=
  { S := ksa key, i := 0, j := 0, k := 0, z := 0 }

/-- The state after `n` keystream steps (43_transform.md R141). -/
def Cipher.steps : Nat → Cipher → Cipher
  | 0, c => c
  | n + 1, c => Cipher.steps n (ksgStep c)

/-- The keystream byte `ks[n] = z_{n+1}` (43_transform.md R141, 41_keystream.md R117). -/
def keystreamByte (key : List Byte) (n : Nat) : Byte :=
  (Cipher.steps (n + 1) (Cipher.start key)).z

/-- `output[n] = message[n] ^ z_{n+1}` for the message from a state of the pass on (43_transform.md R141). -/
def Cipher.apply : List Byte → Cipher → List Byte
  | [], _ => []
  | b :: rest, c =>
    let c' := ksgStep c
    (b ^^^ c'.z) :: Cipher.apply rest c'

/-- `transform(message, key)`: the output bytes, or InvalidKey for the empty key (43_transform.md R141, R146). -/
def transform (message key : List Byte) : Except EngineFault (List Byte) :=
  if wellFormedKey key then .ok (Cipher.apply message (Cipher.start key))
  else .error .invalidKey

/-- An engine that can begin a call: IDLE, not faulted, `KLEN = 0` (43_transform.md R140). -/
def State.atRest (s : State) : Bool :=
  s.ph == .idle && !s.faulted && s.klen == 0

end Sys2Proof.Machine
end

