-- ==== Sys2Proof/Machine/Listing.lean ====
section
/-! DEFINITION. The listing form of commands: lines, pseudo-commands and their expansions, the reading of a line and the
printing of a word. 30_encoding.md R78, R79; lexical details the rules leave open are in log 11. -/

namespace Sys2Proof.Machine

/-- What a line of a listing stands for. -/
inductive ListingLine where
  /-- One command (30_encoding.md R78). -/
  | command (i : Instr)
  /-- `KEY`: one KPUSH per byte (30_encoding.md R79). -/
  | key (bytes : List Byte)
  /-- `MSG`: one CRYPT per byte (30_encoding.md R79). -/
  | msg (bytes : List Byte)
  /-- `TRANSFORM`: one call (30_encoding.md R79). -/
  | transform (callKey message : List Byte)
deriving DecidableEq, Repr

/-- The commands a line expands to, in order (30_encoding.md R79). -/
def ListingLine.expand : ListingLine → List Instr
  | .command i => [i]
  | .key bytes => bytes.map .kpush
  | .msg bytes => bytes.map .crypt
  | .transform callKey message => callCommands callKey message

/-- The assembled words of a listing (30_encoding.md R78). -/
def assemble (lines : List ListingLine) : List Word :=
  (lines.flatMap ListingLine.expand).map encode

/-! ## Characters and numbers -/

def doubleQuote : Char := Char.ofNat 34
def singleQuote : Char := Char.ofNat 39
def semicolon : Char := Char.ofNat 59

/-- The byte of an ASCII character; a character outside ASCII is not allowed in a listing (30_encoding.md R79). -/
def asciiByte (c : Char) : Option Byte :=
  if c.toNat < 128 then some (BitVec.ofNat 8 c.toNat) else none

/-- The byte of a printable ASCII character (30_encoding.md R78). -/
def printableByte (c : Char) : Option Byte :=
  if 32 ≤ c.toNat ∧ c.toNat < 127 then some (BitVec.ofNat 8 c.toNat) else none

/-- The value of a digit, decimal or hexadecimal. -/
def digitValue (c : Char) : Option Nat :=
  let n := c.toNat
  if 48 ≤ n ∧ n ≤ 57 then some (n - 48)
  else if 65 ≤ n ∧ n ≤ 70 then some (n - 55)
  else if 97 ≤ n ∧ n ≤ 102 then some (n - 87)
  else none

/-- The number that digits spell in a base, from the digits read so far. -/
def spelled (base : Nat) : List Char → Nat → Option Nat
  | [], acc => some acc
  | c :: cs, acc =>
    match digitValue c with
    | some d => if d < base then spelled base cs (acc * base + d) else none
    | none => none

/-- A byte written `0x41` or `65` (30_encoding.md R78). -/
def numberByte (cs : List Char) : Option Byte :=
  let value :=
    match cs with
    | '0' :: 'x' :: d :: ds => spelled 16 (d :: ds) 0
    | d :: ds => spelled 10 (d :: ds) 0
    | [] => none
  match value with
  | some v => if v < 256 then some (BitVec.ofNat 8 v) else none
  | none => none

/-- A letter or a digit. -/
def isWordChar (c : Char) : Bool :=
  let n := c.toNat
  decide ((48 ≤ n ∧ n ≤ 57) ∨ (65 ≤ n ∧ n ≤ 90) ∨ (97 ≤ n ∧ n ≤ 122))

/-- The end of a line. -/
def isLineEnd (c : Char) : Bool :=
  decide (c.toNat = 10 ∨ c.toNat = 13)

/-- A space, a tab or the end of a line (DESIGN CHOICE, log 11). -/
def isBlank (c : Char) : Bool :=
  decide (c.toNat = 32 ∨ c.toNat = 9) || isLineEnd c

/-! ## Reading a line -/

/-- A piece of a line. -/
inductive Token where
  | name (letters : List Char)
  | byte (b : Byte)
  | text (bytes : List Byte)
  | comma
deriving DecidableEq, Repr

/-- Where in a line the reader stands. -/
inductive LexMode where
  | between
  | inWord (newestFirst : List Char)
  | inText (newestFirst : List Byte)
  | quoteOpen
  | quoteRead (b : Byte)
  | comment
deriving DecidableEq, Repr

/-- The reader: its mode and the tokens read, newest first. -/
structure Lexer where
  mode : LexMode
  tokens : List Token
deriving DecidableEq, Repr

/-- The token of a run of letters and digits: a number where it begins with a digit, else a name. -/
def wordToken (cs : List Char) : Option Token :=
  match cs with
  | [] => none
  | c :: _ => if c.toNat ≤ 57 then (numberByte cs).map .byte else some (.name cs)

/-- The reader meets a character between two tokens. A semicolon starts a comment (30_encoding.md R78). No blank is asked for
before a quotation, a comma or a comment (DESIGN CHOICE, log 11). -/
def lexBetween (tokens : List Token) (c : Char) : Option Lexer :=
  if isBlank c then some { mode := .between, tokens := tokens }
  else if c = ',' then some { mode := .between, tokens := .comma :: tokens }
  else if c = semicolon then some { mode := .comment, tokens := tokens }
  else if c = doubleQuote then some { mode := .inText [], tokens := tokens }
  else if c = singleQuote then some { mode := .quoteOpen, tokens := tokens }
  else if isWordChar c then some { mode := .inWord [c], tokens := tokens }
  else none

/-- The reader meets a character. A comment goes on to the end of the line (30_encoding.md R78), and no character outside ASCII is
read in any mode, a comment's among them (R79). -/
def lexStep (l : Lexer) (c : Char) : Option Lexer :=
  match l.mode with
  | .between => lexBetween l.tokens c
  | .inWord acc =>
    if isWordChar c then some { mode := .inWord (c :: acc), tokens := l.tokens }
    else
      match wordToken acc.reverse with
      | some t => lexBetween (t :: l.tokens) c
      | none => none
  | .inText acc =>
    if c = doubleQuote then some { mode := .between, tokens := .text acc.reverse :: l.tokens }
    else
      match asciiByte c with
      | some b => some { mode := .inText (b :: acc), tokens := l.tokens }
      | none => none
  | .quoteOpen =>
    match printableByte c with
    | some b => some { mode := .quoteRead b, tokens := l.tokens }
    | none => none
  | .quoteRead b =>
    if c = singleQuote then some { mode := .between, tokens := .byte b :: l.tokens } else none
  | .comment =>
    if isLineEnd c then some { mode := .between, tokens := l.tokens }
    else (asciiByte c).map fun _ => l

/-- The tokens of the reader at the end of a line, in order; none where a quotation is left open. -/
def Lexer.finish (l : Lexer) : Option (List Token) :=
  match l.mode with
  | .between => some l.tokens.reverse
  | .comment => some l.tokens.reverse
  | .inWord acc => (wordToken acc.reverse).map fun t => (t :: l.tokens).reverse
  | .inText _ => none
  | .quoteOpen => none
  | .quoteRead _ => none

/-- The reader meets the characters of a line one after another. -/
def lexChars : List Char → Lexer → Option Lexer
  | [], l => some l
  | c :: cs, l =>
    match lexStep l c with
    | some l' => lexChars cs l'
    | none => none

/-- The tokens of a line. -/
def lexLine (cs : List Char) : Option (List Token) :=
  match lexChars cs { mode := .between, tokens := [] } with
  | some l => l.finish
  | none => none

/-- `b0, b1, ...`: one byte or more, with commas between. -/
def byteList : List Token → Option (List Byte)
  | [.byte b] => some [b]
  | .byte b :: .comma :: rest => (byteList rest).map (b :: ·)
  | _ => none

def nameNop : List Char := ['N', 'O', 'P']
def nameKpush : List Char := ['K', 'P', 'U', 'S', 'H']
def nameKsched : List Char := ['K', 'S', 'C', 'H', 'E', 'D']
def nameCrypt : List Char := ['C', 'R', 'Y', 'P', 'T']
def nameFin : List Char := ['F', 'I', 'N']
def nameRst : List Char := ['R', 'S', 'T']
def nameKey : List Char := ['K', 'E', 'Y']
def nameMsg : List Char := ['M', 'S', 'G']
def nameTransform : List Char := ['T', 'R', 'A', 'N', 'S', 'F', 'O', 'R', 'M']

/-- A mnemonic that stands alone (30_encoding.md R78). -/
def lineOfName (m : List Char) : Option ListingLine :=
  if m = nameNop then some (.command .nop)
  else if m = nameKsched then some (.command .ksched)
  else if m = nameFin then some (.command .fin)
  else if m = nameRst then some (.command .rst)
  else none

/-- A pseudo-command with a list of bytes (30_encoding.md R79). -/
def lineOfBytes (m : List Char) (bytes : List Byte) : Option ListingLine :=
  if m = nameKey then some (.key bytes)
  else if m = nameMsg then some (.msg bytes)
  else none

/-- A mnemonic or a pseudo-command with one byte (30_encoding.md R78, R79). -/
def lineOfByte (m : List Char) (b : Byte) : Option ListingLine :=
  if m = nameKpush then some (.command (.kpush b))
  else if m = nameCrypt then some (.command (.crypt b))
  else lineOfBytes m [b]

/-- An operand of TRANSFORM: a text, or one byte. -/
def tokenBytes : Token → Option (List Byte)
  | .byte b => some [b]
  | .text t => some t
  | .name _ => none
  | .comma => none

/-- `TRANSFORM key, message` (30_encoding.md R79). -/
def lineOfTransform : List Token → Option ListingLine
  | [a, .comma, b] =>
    match tokenBytes a, tokenBytes b with
    | some callKey, some message => some (.transform callKey message)
    | _, _ => none
  | _ => none

/-- The line that tokens spell: `some none` for a blank line, which is ignored; `none` where they spell no line. -/
def lineOfTokens : List Token → Option (Option ListingLine)
  | [] => some none
  | [.name m] => (lineOfName m).map some
  | [.name m, .byte b] => (lineOfByte m b).map some
  | [.name m, .text t] => (lineOfBytes m t).map some
  | .name m :: rest =>
    if m = nameTransform then (lineOfTransform rest).map some
    else
      match byteList rest with
      | some bytes => (lineOfBytes m bytes).map some
      | none => none
  | _ => none

/-- A line of a listing (30_encoding.md R78). -/
def readLine (cs : List Char) : Option (Option ListingLine) :=
  match lexLine cs with
  | some ts => lineOfTokens ts
  | none => none

/-- The lines of a listing, blank lines left out; none where a line is none. -/
def readListing : List (List Char) → Option (List ListingLine)
  | [] => some []
  | cs :: rest =>
    match readLine cs, readListing rest with
    | some (some l), some ls => some (l :: ls)
    | some none, some ls => some ls
    | _, _ => none

/-! ## Printing -/

/-- A hexadecimal digit, capital. -/
def hexDigit (n : Nat) : Char :=
  if n < 10 then Char.ofNat (48 + n) else Char.ofNat (55 + n)

/-- The two hexadecimal digits of a byte. -/
def hexByte (b : Byte) : List Char :=
  [hexDigit (b.toNat / 16), hexDigit (b.toNat % 16)]

/-- A word as four hexadecimal digits, opcode first (30_encoding.md R78). -/
def printWord (c : Word) : List Char :=
  hexByte (opField c) ++ hexByte (immField c)

/-- A byte as an operand, in hexadecimal (30_encoding.md R78). -/
def printByte (b : Byte) : List Char :=
  ['0', 'x'] ++ hexByte b

/-- The bytes of a KEY or MSG line, with commas between (30_encoding.md R79). -/
def printBytes : List Byte → List Char
  | [] => []
  | [b] => printByte b
  | b :: rest => printByte b ++ [',', ' '] ++ printBytes rest

/-- A command as a line of a listing, its operand in hexadecimal (30_encoding.md R78). -/
def printCommand : Instr → List Char
  | .nop => nameNop
  | .kpush b => nameKpush ++ [' '] ++ printByte b
  | .ksched => nameKsched
  | .crypt b => nameCrypt ++ [' '] ++ printByte b
  | .fin => nameFin
  | .rst => nameRst

end Sys2Proof.Machine
end

