-- ==== Sys2Proof/Machine/Reference.lean ====
section
/-! DEFINITION. The dispatch of 30_encoding.md R75 as the rule lists it, step by step, for statements to hold the machine
against: `accept` spreads the same checks over the commands' meanings. -/

namespace Sys2Proof.Machine

/-- The body of a command: what its own rule does once dispatch has let it through (30_encoding.md R75 steps 1 and 5). -/
def bodyOf : Instr → State → State
  | .nop, s => nopBody s
  | .kpush imm8, s => kpushBody imm8 s
  | .ksched, s => kschedBody s
  | .crypt imm8, s => cryptBody imm8 s
  | .fin, s => finBody s
  | .rst, s => softReset s

/-- Steps 1 to 5 of 30_encoding.md R75, in their order. -/
def dispatchInOrder (c : Word) (s : State) : State :=
  if c = 0x0500 then bodyOf .rst s
  else if s.err ≠ 0 then s
  else
    match decode c with
    | .error _ => raise .illegalCommand s
    | .ok i => if legalIn i s.ph then bodyOf i s else raise .badSequence s

end Sys2Proof.Machine
end

