-- ==== Sys2Proof/Machine/Platform.lean ====
section
/-! DEFINITION. A platform of `n` engine instances (`NINST`, 00_scope.md R6). The instances share nothing, have no identifiers
and no signals between them (60_exceptions.md R181, 20_memory.md R61). -/

namespace Sys2Proof.Machine

/-- `n` engines, each with its own `S`, `K`, cursors, PH, ERR, OUT and command port. -/
structure Platform (n : Nat) where
  engines : Vector State n
deriving DecidableEq, Repr

/-- Every engine starts in the reset state, independently (60_exceptions.md R181). Every counter `free` starts at 0 with it, and
the free values of a reset do not depend on the engine, so two engines whose counters are equal take the same choices, where
the spec leaves each engine its own (DESIGN CHOICE, unsafe, log 10). -/
def Platform.reset (n : Nat) : Platform n :=
  { engines := Vector.replicate n State.reset }

/-- Engine `e` of the platform. -/
def Platform.engine (p : Platform n) (e : Fin n) : State :=
  p.engines[e]

/-- Engine `e` takes one step, on its own state alone. Which engine steps when is not said by the spec: any order is a run. -/
def Platform.step (e : Fin n) (p : Platform n) : Host.Outcome (Platform n) Fault Refusal :=
  match Machine.step (p.engine e) with
  | .next s => .next { engines := p.engines.set e s }
  | .fault r => .fault r
  | .refused r => .refused r

/-- The engines named by a schedule step in its order. -/
def Platform.runSchedule : List (Fin n) → Platform n → Host.Outcome (Platform n) Fault Refusal
  | [], p => .next p
  | e :: rest, p =>
    match Platform.step e p with
    | .next p' => Platform.runSchedule rest p'
    | .fault r => .fault r
    | .refused r => .refused r

end Sys2Proof.Machine
end

