-- ==== Sys2Proof/Safety.lean ====
section
/-! DEFINITION. What holds of the state between any two commands, and what the host can see. 10_state.md R39, R34, R33. -/

namespace Sys2Proof.Machine

/-- The state invariants of 10_state.md R39, with the model's own: the canonical form of `S` and `K`, and that the host has
taken no more bytes than were emitted. -/
structure State.Inv (s : State) : Prop where
  /-- `S` is in canonical form. -/
  sWf : s.S.wf
  /-- `K` is in canonical form. -/
  kWf : s.K.wf
  /-- R39 (a). -/
  ready : s.ph = .ready → s.err = 0 ∧ s.klen = 0 ∧ (∀ n, s.K.read n = 0) ∧ s.S.isPermutation
  /-- R39 (b). -/
  faulted : s.err ≠ 0 → s.ph = .idle ∧ s.klen = 0 ∧ (∀ n, s.S.read n = 0) ∧ (∀ n, s.K.read n = 0) ∧
    s.i = 0 ∧ s.j = 0 ∧ s.k = 0 ∧ s.z = 0
  /-- R39 (c). -/
  idle : s.ph = .idle → (∀ n, s.S.read n = 0) ∧ s.i = 0 ∧ s.j = 0 ∧ s.k = 0 ∧ s.z = 0
  /-- R39 (d). -/
  keyLength : s.klen.toNat ≤ 256 ∧ ∀ n : Byte, s.klen.toNat ≤ n.toNat → s.K.read n = 0
  /-- R39 (e). -/
  oneFlag : s.err = 0 ∨ s.err = 1 ∨ s.err = 2 ∨ s.err = 4
  /-- The host takes only bytes that were emitted. -/
  port : s.taken ≤ s.out.length

/-- All that the host can see of an engine: the status lines, the bytes on the output port and the bytes it has taken
(10_state.md R21, R33, R34). -/
def State.visible (s : State) : Byte × BitVec 1 × List Byte × Nat :=
  (s.status, s.faultLine, s.out, s.taken)

/-- The engine holds nothing of a call: `S`, `K`, the cursors and KLEN are zero (70_reset_and_hazards.md R203). -/
def State.holdsNothing (s : State) : Prop :=
  (∀ n, s.S.read n = 0) ∧ (∀ n, s.K.read n = 0) ∧ s.i = 0 ∧ s.j = 0 ∧ s.k = 0 ∧ s.z = 0 ∧ s.klen = 0

end Sys2Proof.Machine
end

