-- ==== Sys2Proof/Certificates/Slice0/Obligations.lean ====
section
/-! DEFINITION. The statements for the provers. Each docstring names the rule of spec/ it formalises, or says what it rests on. -/

open Sys2Proof Sys2Proof.Machine

/-! ## Encoding -/

/-- 30_encoding.md R72. A word decodes to a command exactly when its row of the opcode map, by mask and match, is that
command's; and the commands' legal phases are those of the table. -/
def Obligations.WordsSelectTheirRowOfTheOpcodeMap : Prop :=
  (∀ (c : Word) (i : Instr), decode c = .ok i ↔
    (c &&& 0xFFFF = 0x0000 ∧ i = .nop) ∨ (c &&& 0xFF00 = 0x0100 ∧ i = .kpush (c.setWidth 8)) ∨
    (c &&& 0xFFFF = 0x0200 ∧ i = .ksched) ∨ (c &&& 0xFF00 = 0x0300 ∧ i = .crypt (c.setWidth 8)) ∨
    (c &&& 0xFFFF = 0x0400 ∧ i = .fin) ∨ (c &&& 0xFFFF = 0x0500 ∧ i = .rst)) ∧
  (∀ (i : Instr) (p : Phase), legalIn i p = true ↔
    i = .nop ∨ i = .rst ∨ (p = .idle ∧ ((∃ b, i = .kpush b) ∨ i = .ksched)) ∨ (p = .ready ∧ ((∃ b, i = .crypt b) ∨ i = .fin)))

/-- 30_encoding.md R74. The illegal words are those of opcode 0x06 to 0xFF, 64,000 of them (250 opcodes by 256 operand
bytes), and those of opcode 0x00, 0x02, 0x04, 0x05 with an operand byte that is not 0x00, 1,020 of them (4 by 255); one
accepted by an engine that is not faulted raises IllegalCommand. -/
def Obligations.IllegalWordsAreTheUnusedOpcodesAndStrayOperands : Prop :=
  (∀ op imm8 : Byte, (∃ e, decode (wordOf op imm8) = .error e) ↔
    6 ≤ op.toNat ∨ ((op = 0x00 ∨ op = 0x02 ∨ op = 0x04 ∨ op = 0x05) ∧ imm8 ≠ 0x00)) ∧
  (allBytes.filter fun op => decide (6 ≤ op.toNat)).length * allBytes.length = 64000 ∧
  ([0x00, 0x02, 0x04, 0x05] : List Byte).length * (allBytes.filter fun imm8 => imm8 != 0x00).length = 1020 ∧
  (∀ (c : Word) (e : DecodeError) (s : State), decode c = .error e → s.err = 0 → accept c s = .next (raise .illegalCommand s))

/-- A few words written out bit by bit from 30_encoding.md R72 decode to the command they stand for, and a few illegal
ones to none (the table V15 of 95_test_vectors.md). -/
def Obligations.SampleWordsDecodeAsTheSpecWritesThem : Prop :=
  decode 0b0000000000000000 = .ok .nop ∧ decode 0b0000000101000001 = .ok (.kpush 0x41) ∧
  decode 0b0000000111111111 = .ok (.kpush 0xFF) ∧ decode 0b0000001000000000 = .ok .ksched ∧
  decode 0b0000001110000000 = .ok (.crypt 0x80) ∧ decode 0b0000010000000000 = .ok .fin ∧
  decode 0b0000010100000000 = .ok .rst ∧ decode 0x0001 = .error .operandNotZero ∧ decode 0x0280 = .error .operandNotZero ∧
  decode 0x0401 = .error .operandNotZero ∧ decode 0x0501 = .error .operandNotZero ∧ decode 0x0600 = .error .unusedOpcode ∧
  decode 0xFFFF = .error .unusedOpcode

/-- 20_memory.md section 2 and 30_encoding.md sections 1 and 2. A serialised stream of commands, opcode byte first,
decodes to exactly these commands, with every operand at every value; and a stream that decodes to commands is their
serialisation, two bytes each. This last clause, by which a stream that ends in a single byte or holds an illegal word
decodes to nothing, is the model's choice (log 12, DESIGN CHOICE). -/
def Obligations.SerialisedStreamsDecodeToTheirCommands : Prop :=
  (∀ i : Instr, wellFormed i = true ∧ serialise (encode i) = [opcodeOf i, operandOf i]) ∧
  (∀ is : List Instr, decodeStream (encodeStream is) = .ok is) ∧
  (∀ (bytes : List Byte) (is : List Instr), decodeStream bytes = .ok is →
    encodeStream is = bytes ∧ bytes.length = 2 * is.length)

/-- 30_encoding.md section 4. The lexical details are the model's choice (log 11). KEY, MSG and TRANSFORM expand to one
KPUSH per byte, one CRYPT per byte and one call, KEY and MSG of nothing to nothing; a KEY or MSG line of one or more bytes
with commas between, or with quoted text, is read as these bytes, the text as its ASCII bytes without a terminator; a
TRANSFORM line with two quoted texts is read as that call; and a line with a character outside ASCII, wherever it stands,
is no line. -/
def Obligations.PseudoCommandsExpandToTheirBytes : Prop :=
  (∀ k m : List Byte,
    (ListingLine.key k).expand = k.map Instr.kpush ∧ (ListingLine.msg m).expand = m.map Instr.crypt ∧
    (ListingLine.transform k m).expand =
      (ListingLine.key k).expand ++ [.ksched] ++ (ListingLine.msg m).expand ++ [.fin]) ∧
  (ListingLine.key []).expand = [] ∧ (ListingLine.msg []).expand = [] ∧
  (∀ bytes : List Byte, bytes ≠ [] →
    readLine (nameKey ++ [' '] ++ printBytes bytes) = some (some (.key bytes)) ∧
    readLine (nameMsg ++ [' '] ++ printBytes bytes) = some (some (.msg bytes))) ∧
  (∀ text : List Char, (∀ c ∈ text, c.toNat < 128 ∧ c ≠ doubleQuote) →
    readLine (nameKey ++ [' ', doubleQuote] ++ text ++ [doubleQuote]) =
      some (some (.key (text.map fun c => BitVec.ofNat 8 c.toNat))) ∧
    readLine (nameMsg ++ [' ', doubleQuote] ++ text ++ [doubleQuote]) =
      some (some (.msg (text.map fun c => BitVec.ofNat 8 c.toNat)))) ∧
  (∀ text text' : List Char, (∀ c ∈ text, c.toNat < 128 ∧ c ≠ doubleQuote) → (∀ c ∈ text', c.toNat < 128 ∧ c ≠ doubleQuote) →
    readLine (nameTransform ++ [' ', doubleQuote] ++ text ++ [doubleQuote, ',', ' ', doubleQuote] ++ text' ++ [doubleQuote]) =
      some (some (.transform (text.map fun c => BitVec.ofNat 8 c.toNat) (text'.map fun c => BitVec.ofNat 8 c.toNat)))) ∧
  (∀ line : List Char, (∃ c ∈ line, 128 ≤ c.toNat) → readLine line = none)

/-- 30_encoding.md section 4. The lexical details are the model's choice (log 11). Every command printed as a line of a
listing is read back as that command, and a comment of ASCII characters behind it changes nothing; a line that is only
such a comment is ignored; its word prints as opcode and operand in four hexadecimal digits; and an operand is also read
in decimal and as a printable ASCII character in single quotes. -/
def Obligations.PrintedCommandsReadBack : Prop :=
  (∀ i : Instr, readLine (printCommand i) = some (some (.command i)) ∧
    printWord (encode i) = hexByte (opcodeOf i) ++ hexByte (operandOf i)) ∧
  (∀ (i : Instr) (remark : List Char), (∀ c ∈ remark, c.toNat < 128 ∧ c.toNat ≠ 10 ∧ c.toNat ≠ 13) →
    readLine (printCommand i ++ [' ', semicolon] ++ remark) = some (some (.command i))) ∧
  (∀ remark : List Char, (∀ c ∈ remark, c.toNat < 128 ∧ c.toNat ≠ 10 ∧ c.toNat ≠ 13) →
    readLine (semicolon :: remark) = some none) ∧
  (∀ b : Byte, readLine (nameKpush ++ [' '] ++ Nat.toDigits 10 b.toNat) = some (some (.command (.kpush b))) ∧
    readLine (nameCrypt ++ [' '] ++ Nat.toDigits 10 b.toNat) = some (some (.command (.crypt b)))) ∧
  (∀ c : Char, 32 ≤ c.toNat → c.toNat < 127 →
    readLine (nameKpush ++ [' ', singleQuote, c, singleQuote]) = some (some (.command (.kpush (BitVec.ofNat 8 c.toNat)))) ∧
    readLine (nameCrypt ++ [' ', singleQuote, c, singleQuote]) = some (some (.command (.crypt (BitVec.ofNat 8 c.toNat)))))

/-! ## State, reset, and what the host sees -/

/-- 10_state.md R37. The state after hardware reset and after RST is exactly the table's: everything zero, IDLE, no flag;
OUT is empty after hardware reset and unchanged by RST; `w` is 1. -/
def Obligations.ResetValuesAreThoseOfTheTable : Prop :=
  (State.reset.holdsNothing ∧ State.reset.ph = .idle ∧ State.reset.err = 0 ∧ State.reset.status = 0x00 ∧
    State.reset.faultLine = 0 ∧ State.reset.out = []) ∧
  (∀ s : State, let t := hardwareReset s
    t.holdsNothing ∧ t.ph = .idle ∧ t.err = 0 ∧ t.status = 0x00 ∧ t.faultLine = 0 ∧ t.out = []) ∧
  (∀ s : State, ∃ t, exec .rst s = .next t ∧
    t.holdsNothing ∧ t.ph = .idle ∧ t.err = 0 ∧ t.status = 0x00 ∧ t.faultLine = 0 ∧ t.out = s.out) ∧
  Config.stepWidth = 1

/-- The reset state meets the state invariants (10_state.md section 5; with the model's own canonical form and port
position). -/
def Obligations.ResetStateMeetsTheInvariants : Prop :=
  State.reset.Inv

/-- The state invariants that 10_state.md section 5 derives hold after every step from every state that meets them,
whatever the host does: the memory keeps its canonical form, READY holds a permutation and no key, a faulted or idle
engine holds nothing secret, KLEN is at most 256, at most one flag is set. -/
def Obligations.StepKeepsTheInvariants : Prop :=
  ∀ s t : State, s.Inv → step s = .next t → t.Inv

/-- 10_state.md R22. Along every run from a state that meets the invariants, `S` is a permutation of 0..255 whenever PH is
READY; KSCHED establishes it and CRYPT preserves it. -/
def Obligations.ReadyHoldsAPermutationAlongEveryRun : Prop :=
  (∀ (n : Nat) (s t : State), s.Inv → Host.Core.run core n s = .next t → t.ph = .ready → t.S.isPermutation) ∧
  (∀ s t : State, s.S.wf → s.ph = .idle → s.err = 0 → exec .ksched s = .next t → t.ph = .ready → t.S.isPermutation) ∧
  (∀ (b : Byte) (s t : State), s.S.wf → s.S.isPermutation → s.ph = .ready → exec (.crypt b) s = .next t → t.S.isPermutation)

/-- 10_state.md R34. STATUS is PH, the three flags and four zero bits; the fault line is 1 exactly when ERR is not 0;
nothing else enters either. -/
def Obligations.StatusShowsPhaseAndFlagsOnly : Prop :=
  (∀ s : State, s.status.getLsbD 0 = (s.ph == .ready) ∧ s.status.getLsbD 1 = s.err.getLsbD 0 ∧
    s.status.getLsbD 2 = s.err.getLsbD 1 ∧ s.status.getLsbD 3 = s.err.getLsbD 2 ∧
    s.status.extractLsb' 4 4 = 0 ∧ (s.faultLine = 1 ↔ s.err ≠ 0)) ∧
  (∀ s t : State, s.ph = t.ph → s.err = t.err → s.status = t.status ∧ s.faultLine = t.faultLine)

/-- 10_state.md section 4. The acts of the host are the model's list (log 1). PH is bit 0 of STATUS; IDLE becomes READY
only by a KSCHED that does not fault; READY becomes IDLE only by FIN, RST, a hardware reset or a fault. -/
def Obligations.PhaseChangesOnlyByItsCommands : Prop :=
  Phase.bit .idle = 0 ∧ Phase.bit .ready = 1 ∧ (∀ s : State, s.status.setWidth 1 = s.ph.bit) ∧
  (∀ s t : State, step s = .next t → s.ph = .idle → t.ph = .ready →
    ∃ rest, s.host = .command (encode .ksched) :: rest ∧ s.err = 0 ∧ s.klen ≠ 0 ∧ t.err = s.err) ∧
  (∀ s t : State, step s = .next t → s.ph = .ready → t.ph = .idle →
    ∃ a rest, s.host = a :: rest ∧
      (a = .command (encode .fin) ∨ a = .command (encode .rst) ∨ a = .reset ∨ (∃ c, a = .resetDuring c) ∨
        ∃ e, t = raise e (s.setHost rest)))

/-- 10_state.md section 4. The acts of the host are the model's list (log 1). A step leaves OUT as it was, or appends one
byte and is a CRYPT, or is a hardware reset and leaves OUT empty; OUT starts empty. -/
def Obligations.OutGrowsOnlyByOneByteOfCrypt : Prop :=
  State.reset.out = [] ∧
  ∀ s t : State, step s = .next t →
    t.out = s.out ∨
    (∃ b rest, s.host = .command (encode (.crypt b)) :: rest ∧ t.out = s.out ++ [b ^^^ t.z]) ∨
    (t.out = [] ∧ ∃ a rest, s.host = a :: rest ∧ (a = .reset ∨ ∃ c, a = .resetDuring c))

/-- 10_state.md section 4. The acts of the host are the model's list (log 1). A flag of ERR becomes 1 only by fault entry
and becomes 0 only by RST or hardware reset; no other command changes ERR, and at most one flag is ever 1. -/
def Obligations.FlagsAreSetByFaultEntryAndClearedByReset : Prop :=
  (∀ (s t : State) (e : EngineFault), step s = .next t → s.flag e = false → t.flag e = true →
    ∃ c rest, s.host = .command c :: rest ∧ t = raise e (s.setHost rest)) ∧
  (∀ (s t : State) (e : EngineFault), step s = .next t → s.flag e = true → t.flag e = false →
    ∃ a rest, s.host = a :: rest ∧ t.err = 0 ∧
      (a = .command (encode .rst) ∨ a = .reset ∨ ∃ c, a = .resetDuring c)) ∧
  (∀ (n : Nat) (s t : State) (e e' : EngineFault), s.Inv → Host.Core.run core n s = .next t →
    t.flag e = true → t.flag e' = true → e = e')

/-- 10_state.md section 1. What the host sees after a word depends on nothing it cannot see, but for whether a key byte
was pushed and for the keystream byte in the byte a CRYPT emits: two engines that look alike still look alike after any
word, except in that byte. -/
def Obligations.TheHostSeesNothingOfTheSecretState : Prop :=
  ∀ (c : Word) (s s' t t' : State), s.visible = t.visible → (s.klen = 0 ↔ t.klen = 0) →
    accept c s = .next s' → accept c t = .next t' →
    s'.status = t'.status ∧ s'.faultLine = t'.faultLine ∧ s'.taken = t'.taken ∧
    (s'.out = t'.out ∨
      ∃ b, c = encode (.crypt b) ∧ s'.out = s.out ++ [b ^^^ s'.z] ∧ t'.out = t.out ++ [b ^^^ t'.z])

/-- 10_state.md R36. Zeroize sets every entry of `S` and `K`, the cursors and KLEN to 0 and changes nothing else; FIN,
RST, fault entry and hardware reset perform it. -/
def Obligations.ZeroizeClearsTheSecretStateAndNothingElse : Prop :=
  (∀ s : State, (zeroize s).holdsNothing ∧
    { zeroize s with S := s.S, K := s.K, i := s.i, j := s.j, k := s.k, z := s.z, klen := s.klen } = s) ∧
  (∀ s : State, finBody s = { zeroize s with ph := .idle } ∧ softReset s = { zeroize s with ph := .idle, err := 0 } ∧
    (∀ e, raise e s = { zeroize s with ph := .idle, err := (raise e s).err }) ∧ (hardwareReset s).holdsNothing)

/-! ## Dispatch -/

/-- When the host's next act is to present a word that decodes to a command, the step is that command's meaning in the
state with the act done (20_memory.md section 2, 30_encoding.md section 3; the list of the host's acts is the model's, log
1). -/
def Obligations.StepRunsTheDecodedCommand : Prop :=
  (∀ (s : State) (c : Word) (rest : List HostAction) (i : Instr), s.host = .command c :: rest → decode c = .ok i →
    wellFormed i = true ∧ step s = exec i (s.setHost rest)) ∧
  (∀ (s : State) (i : Instr), step (s.withFetchWord 16 (encode i).toNat) = exec i s)

/-- 30_encoding.md R75. On every word and in every state the engine does the five steps of the rule in their order: RST
first, then the drop of a faulted engine, then decoding, then the phase, then the command. -/
def Obligations.AcceptFollowsTheDispatchOrder : Prop :=
  ∀ (c : Word) (s : State), accept c s = .next (
    if c = 0x0500 then softReset s
    else if s.err ≠ 0 then s
    else
      match decode c with
      | .error _ => raise .illegalCommand s
      | .ok i => if legalIn i s.ph then bodyOf i s else raise .badSequence s)

/-- 30_encoding.md R76. The table of legality by phase, entry by entry. -/
def Obligations.CommandsAreLegalByPhase : Prop :=
  (∀ s : State, s.err = 0 → s.ph = .idle →
    exec .nop s = .next (bodyOf .nop s) ∧ (∀ b, exec (.kpush b) s = .next (bodyOf (.kpush b) s)) ∧
    (s.klen ≠ 0 → ∃ t, exec .ksched s = .next t ∧ t.ph = .ready) ∧
    (s.klen = 0 → exec .ksched s = .next (raise .invalidKey s)) ∧
    (∀ b, exec (.crypt b) s = .next (raise .badSequence s)) ∧ exec .fin s = .next (raise .badSequence s)) ∧
  (∀ s : State, s.err = 0 → s.ph = .ready →
    exec .nop s = .next (bodyOf .nop s) ∧ (∀ b, exec (.kpush b) s = .next (raise .badSequence s)) ∧
    exec .ksched s = .next (raise .badSequence s) ∧ (∀ b, exec (.crypt b) s = .next (bodyOf (.crypt b) s)) ∧
    exec .fin s = .next (bodyOf .fin s)) ∧
  (∀ s : State, s.err ≠ 0 → ∀ i, i ≠ .rst → exec i s = .next s) ∧
  (∀ s : State, exec .rst s = .next (bodyOf .rst s)) ∧
  (∀ (c : Word) (e : DecodeError) (s : State), decode c = .error e →
    (s.err = 0 → accept c s = .next (raise .illegalCommand s)) ∧ (s.err ≠ 0 → accept c s = .next s))

/-! ## Faults -/

/-- 60_exceptions.md R166. Fault entry zeroises, makes PH IDLE and sets the fault's flag, the other flags as before; OUT
and all else stay. -/
def Obligations.FaultEntryZeroisesAndSetsItsFlag : Prop :=
  ∀ (e : EngineFault) (s : State), let t := raise e s
    t.holdsNothing ∧ t.ph = .idle ∧ t.flag e = true ∧ (∀ e', e' ≠ e → t.flag e' = s.flag e') ∧
    { t with S := s.S, K := s.K, i := s.i, j := s.j, k := s.k, z := s.z, klen := s.klen, ph := s.ph, err := s.err } = s

/-- 60_exceptions.md R160. The three faults have the codes 0, 1, 2, show STATUS 0x02, 0x04, 0x08, are raised by the named
causes, only while the engine is not faulted, and no others exist. -/
def Obligations.TheThreeFaultsHaveTheirCausesCodesAndStatus : Prop :=
  (EngineFault.invalidKey.code = 0 ∧ EngineFault.badSequence.code = 1 ∧ EngineFault.illegalCommand.code = 2) ∧
  (∀ s : State, s.err = 0 → (raise .invalidKey s).status = 0x02 ∧ (raise .badSequence s).status = 0x04 ∧
    (raise .illegalCommand s).status = 0x08) ∧
  (∀ (c : Word) (s t : State), s.err = 0 → accept c s = .next t →
    (t.err ≠ 0 ↔
      (c = encode .ksched ∧ s.ph = .idle ∧ s.klen = 0) ∨
      (((∃ b, c = encode (.kpush b)) ∨ c = encode .ksched) ∧ s.ph = .ready) ∨
      (((∃ b, c = encode (.crypt b)) ∨ c = encode .fin) ∧ s.ph = .idle) ∨
      (∃ e, decode c = .error e))) ∧
  (∀ (c : Word) (s t : State), s.err = 0 → accept c s = .next t → t.err ≠ 0 →
    (c = encode .ksched ∧ s.ph = .idle ∧ t = raise .invalidKey s) ∨
    ((∃ i, decode c = .ok i ∧ legalIn i s.ph = false) ∧ t = raise .badSequence s) ∨
    ((∃ e, decode c = .error e) ∧ t = raise .illegalCommand s)) ∧
  (∀ (c : Word) (s t : State), s.err ≠ 0 → accept c s = .next t → t.err = s.err ∨ t.err = 0)

/-- 70_reset_and_hazards.md R201. KSCHED with an empty key buffer raises InvalidKey and leaves nothing keyed: no schedule
of a substitute key is run. -/
def Obligations.EmptyKeyRaisesInvalidKey : Prop :=
  ∀ s : State, s.err = 0 → s.ph = .idle → s.klen = 0 →
    ∃ t, exec .ksched s = .next t ∧ t.flag .invalidKey = true ∧ t.ph = .idle ∧ t.holdsNothing ∧ t.out = s.out ∧
      t.status = 0x02

/-- 60_exceptions.md R167. A faulted engine takes every word but RST without any change, however many come, legal or not;
and at most one flag is ever 1. -/
def Obligations.AFaultedEngineDropsEveryWordButRst : Prop :=
  (∀ (ws : List Word) (s : State), s.err ≠ 0 → (∀ c ∈ ws, c ≠ 0x0500) → acceptAll ws s = .next s) ∧
  (∀ (ws : List Word) (s t : State), s.err = 0 → acceptAll ws s = .next t →
    t.err = 0 ∨ t.err = 1 ∨ t.err = 2 ∨ t.err = 4)

/-- 60_exceptions.md section 2. The acts of the host are the model's list (log 1). The faulted condition ends only by RST
or hardware reset, and both leave the reset state, but for OUT, the port, the closed histories, the host's further acts
and the model's counter. -/
def Obligations.OnlyRstAndHardwareResetEndAFault : Prop :=
  ∀ s t : State, s.err ≠ 0 → step s = .next t → t.err = 0 →
    ∃ a rest, s.host = a :: rest ∧ (a = .command (encode .rst) ∨ a = .reset ∨ ∃ c, a = .resetDuring c) ∧
      t = { State.reset with out := t.out, taken := t.taken, past := t.past, host := rest, free := t.free }

/-- 60_exceptions.md R170. An illegal word raises IllegalCommand in either phase; a wrong phase comes before the empty
key: a KSCHED in READY raises BadSequence and never InvalidKey, whatever KLEN. -/
def Obligations.FaultPriorityIsWordThenPhaseThenKey : Prop :=
  (∀ (c : Word) (e : DecodeError) (s : State), decode c = .error e → s.err = 0 →
    accept c s = .next (raise .illegalCommand s)) ∧
  (∀ s : State, s.err = 0 → s.ph = .ready → ∃ t, exec .ksched s = .next t ∧
    t.flag .badSequence = true ∧ t.flag .invalidKey = false) ∧
  (∀ s : State, s.err = 0 → s.ph = .idle → s.klen = 0 → ∃ t, exec .ksched s = .next t ∧
    t.flag .invalidKey = true ∧ t.flag .badSequence = false)

/-- 60_exceptions.md R162 and R163. BadSequence is raised by KPUSH and KSCHED in READY and by CRYPT and FIN in IDLE;
IllegalCommand by a word of no row, which is not executed in any part. -/
def Obligations.WrongPhaseAndIllegalWordsFault : Prop :=
  (∀ s : State, s.err = 0 → s.ph = .ready →
    (∀ b, exec (.kpush b) s = .next (raise .badSequence s)) ∧ exec .ksched s = .next (raise .badSequence s)) ∧
  (∀ s : State, s.err = 0 → s.ph = .idle →
    (∀ b, exec (.crypt b) s = .next (raise .badSequence s)) ∧ exec .fin s = .next (raise .badSequence s)) ∧
  (∀ (c : Word) (s : State), s.err = 0 → (∀ r ∈ opcodeMap, c &&& r.mask ≠ r.pattern) →
    accept c s = .next (raise .illegalCommand s))

/-- No step of the machine stops with a fault or a refusal: every accepted command completes and every act of the host is
met with a next state (60_exceptions.md section 1, 70_reset_and_hazards.md section 4). That nothing stops is the model's
choice in three points: the faults of the block are next states and Fault is empty (log 9, DEDUCED), taking a byte from an
empty port has no effect (log 5, DESIGN CHOICE), and with no act left a step leaves the state as it is (log 1, DESIGN
CHOICE). -/
def Obligations.EveryStepHasANextState : Prop :=
  (∀ s : State, ∃ t, step s = .next t) ∧ (∀ (i : Instr) (s : State), ∃ t, exec i s = .next t) ∧
  (∀ (n : Nat) (s : State), ∃ t, Host.Core.run core n s = .next t)

/-! ## The commands -/

/-- 42_control.md R130. The word 0x0000 and no other is NOP; NOP leaves every state as it is, also a faulted one; a word
0x00nn with nn not 0 is illegal. -/
def Obligations.NopChangesNothing : Prop :=
  encode .nop = 0x0000 ∧ (∀ c : Word, decode c = .ok .nop ↔ c = 0x0000) ∧ (∀ s : State, exec .nop s = .next s) ∧
  (∀ (b : Byte) (s : State), b ≠ 0 → s.err = 0 → accept (wordOf 0x00 b) s = .next (raise .illegalCommand s))

/-- 42_control.md R131. RST zeroises, makes PH IDLE and clears all flags in every state; OUT and all else stay. Hardware
reset differs in that it also empties OUT and begins a new history. -/
def Obligations.RstResetsEveryStateAndKeepsOut : Prop :=
  encode .rst = 0x0500 ∧
  (∀ s : State, ∃ t, exec .rst s = .next t ∧ t.holdsNothing ∧ t.ph = .idle ∧ t.err = 0 ∧ t.status = 0x00 ∧
    t = { State.reset with out := s.out, taken := s.taken, past := s.past, host := s.host, free := s.free }) ∧
  (∀ s : State, hardwareReset s = { softReset s with
    out := [], taken := 0, past := (hardwareReset s).past, free := (hardwareReset s).free })

/-- 40_key_schedule.md R90. KPUSH in IDLE stores the byte at K[KLEN] and counts it, below 256, and changes no other byte
and no other state; at 256 it changes nothing; in READY it raises BadSequence; faulted it is dropped. -/
def Obligations.KpushAppendsOneKeyByte : Prop :=
  ∀ (b : Byte) (s : State), encode (.kpush b) = 0x0100 + b.setWidth 16 ∧
    (s.err = 0 → s.ph = .idle → s.K.wf → s.klen.toNat < 256 → ∃ t, exec (.kpush b) s = .next t ∧
      t.K.read (indexKlen s) = b ∧ (indexKlen s).toNat = s.klen.toNat ∧
      (∀ a, a ≠ indexKlen s → t.K.read a = s.K.read a) ∧ t.klen.toNat = s.klen.toNat + 1 ∧
      t = { s with K := t.K, klen := t.klen }) ∧
    (s.err = 0 → s.ph = .idle → ¬ s.klen.toNat < 256 → exec (.kpush b) s = .next s) ∧
    (s.err = 0 → s.ph = .ready → exec (.kpush b) s = .next (raise .badSequence s)) ∧
    (s.err ≠ 0 → exec (.kpush b) s = .next s)

/-- 40_key_schedule.md sections 1 and 2 (the order of key bytes and the harmlessness of a full buffer are derived there).
From an engine at rest, pushing the bytes of a key leaves KLEN at the smaller of its length and 256 and K[n] at key[n]
below that, however long the key; the 257th and every later byte changes nothing, and the schedule of the first 256 bytes
is the schedule of the whole key. -/
def Obligations.PushedKeyBytesLandInOrderUpToTheFirst256 : Prop :=
  (∀ (b : Byte) (s : State), s.err = 0 → s.ph = .idle → s.klen = 256 → exec (.kpush b) s = .next s) ∧
  (∀ (key : List Byte) (s : State), s.err = 0 → s.ph = .idle → s.klen = 0 → s.K.wf →
    ∃ t, acceptAll (key.map fun b => encode (.kpush b)) s = .next t ∧ t.klen.toNat = min key.length 256 ∧
      (∀ n : Byte, n.toNat < key.length → t.K.read n = key.getD n.toNat 0) ∧
      (∀ n : Byte, key.length ≤ n.toNat → t.K.read n = s.K.read n) ∧
      bufferedKey t = key.take 256 ∧ t = { s with K := t.K, klen := t.klen }) ∧
  (∀ key : List Byte, 256 ≤ key.length → ksa (key.take 256) = ksa key)

/-- 40_key_schedule.md section 2 (derived there as a pure function). One iteration adds the entry and the key byte to the
accumulator modulo 256 and exchanges two entries, or none where the indices are equal; every other entry stays. -/
def Obligations.KsaIterationSwapsTwoEntries : Prop :=
  ∀ (S : Memory) (j i kb : Byte), S.wf → ∀ (S' : Memory) (j' : Byte), ksaIter S j i kb = (S', j') →
    j'.toNat = (j.toNat + (S.read i).toNat + kb.toNat) % 256 ∧ S'.read i = S.read j' ∧ S'.read j' = S.read i ∧
    (∀ a, a ≠ i → a ≠ j' → S'.read a = S.read a) ∧ (i = j' → S' = S) ∧ S'.wf

/-- 40_key_schedule.md R94. KSCHED in IDLE with a key: `S` is the key schedule of the buffered key, which is 256
iterations in ascending order from 0 to 255, from the identity permutation and from the accumulator 0 (line 3; the spec's
decision D12, log 6); the key is gone, the cursors are 0, PH is READY, and ERR, OUT and all else stay. With KLEN = 0 it
raises InvalidKey; in READY BadSequence; faulted it is dropped. -/
def Obligations.KschedRunsTheKeySchedule : Prop :=
  encode .ksched = 0x0200 ∧
  (allBytes = (List.range 256).map (BitVec.ofNat 8) ∧ (∀ n : Byte, Memory.zero.fillIdentity.read n = n) ∧
    Config.accumulatorStart = 0) ∧
  (∀ key : List Byte, key ≠ [] → ksa key = (((List.range 256).map (BitVec.ofNat 8)).foldl
    (fun p c => ksaIter p.1 p.2 c (key.getD (c.toNat % key.length) 0)) (Memory.zero.fillIdentity, 0)).1) ∧
  ∀ s : State,
    (s.err = 0 → s.ph = .idle → s.klen ≠ 0 → s.S.wf → exec .ksched s = .next
      { s with S := ksa (bufferedKey s), K := Memory.zero, klen := 0, i := 0, j := 0, k := 0, z := 0, ph := .ready }) ∧
    (s.err = 0 → s.ph = .idle → s.klen = 0 → exec .ksched s = .next (raise .invalidKey s)) ∧
    (s.err = 0 → s.ph = .ready → exec .ksched s = .next (raise .badSequence s)) ∧
    (s.err ≠ 0 → exec .ksched s = .next s)

/-- 40_key_schedule.md R99. After a KSCHED that does not fault `S` contains each value 0..255 exactly once. -/
def Obligations.KschedLeavesAPermutation : Prop :=
  ∀ s : State, s.err = 0 → s.ph = .idle → s.klen ≠ 0 → s.S.wf →
    ∃ t, exec .ksched s = .next t ∧ t.S.isPermutation ∧ ∀ v : Byte, ∃! a : Byte, t.S.read a = v

/-- 40_key_schedule.md R100. `S` after KSCHED depends on K[0..KLEN-1] and KLEN alone: two engines that agree there,
whatever else they hold, get the same `S`; no iteration writes `K`; and it is the pure function `ksa`. -/
def Obligations.TheScheduleDependsOnTheKeyAlone : Prop :=
  (∀ s t s' t' : State, s.err = 0 → t.err = 0 → s.ph = .idle → t.ph = .idle → s.S.wf → t.S.wf →
    s.klen = t.klen → s.klen ≠ 0 → (∀ n : Byte, n.toNat < s.klen.toNat → s.K.read n = t.K.read n) →
    exec .ksched s = .next s' → exec .ksched t = .next t' → s'.S = t'.S ∧ s'.S = ksa (bufferedKey s)) ∧
  (∀ (c : Byte) (s : State), (kschedIteration s c).K = s.K ∧ (kschedIteration s c).out = s.out)

/-- 40_key_schedule.md section 2 and 43_transform.md (derived there). Keys with the same expansion have the same schedule
and the same calls; a key repeated any number of times is such a key, and so is a longer key cut after its first 256
bytes. -/
def Obligations.KeysOfEqualExpansionAreEquivalent : Prop :=
  (∀ key key' : List Byte, key ≠ [] → key' ≠ [] → (∀ i, keyExpansion key i = keyExpansion key' i) →
    ksa key = ksa key' ∧ ∀ m, transform m key = transform m key') ∧
  (∀ (key : List Byte) (n : Nat), key ≠ [] → n ≠ 0 → ksa (List.replicate n key).flatten = ksa key ∧
    ∀ m, transform m (List.replicate n key).flatten = transform m key) ∧
  (∀ key rest : List Byte, key.length = 256 → ∀ m, transform m (key ++ rest) = transform m key)

/-- 41_keystream.md R112. CRYPT in READY does the six lines of the rule, each on what the line before left, appends one
byte, exchanges at most the entries at the new `i` and the new `j`, and leaves K, KLEN, PH, ERR and all else as they were;
in IDLE it raises BadSequence; faulted it is dropped. -/
def Obligations.CryptDoesTheSixLines : Prop :=
  ∀ (b : Byte) (s : State), encode (.crypt b) = 0x0300 + b.setWidth 16 ∧
    (s.err = 0 → s.ph = .ready → ∃ t, exec (.crypt b) s = .next t ∧
      t.i = s.i + Config.stepWidth ∧ t.j = s.k + s.S.read (s.j + s.S.read t.i) ∧ t.k = t.i + s.k + s.S.read t.j ∧
      t.S = s.S.swap t.i t.j ∧ t.z = t.S.read (t.j + t.S.read (t.i + t.S.read (s.z + t.k))) ∧
      t.out = s.out ++ [b ^^^ t.z] ∧
      t = { s with S := t.S, i := t.i, j := t.j, k := t.k, z := t.z, out := t.out } ∧
      (s.S.wf → t.S.read t.i = s.S.read t.j ∧ t.S.read t.j = s.S.read t.i ∧
        ∀ a, a ≠ t.i → a ≠ t.j → t.S.read a = s.S.read a)) ∧
    (s.err = 0 → s.ph = .idle → exec (.crypt b) s = .next (raise .badSequence s)) ∧
    (s.err ≠ 0 → exec (.crypt b) s = .next s)

/-- 41_keystream.md section 2 (derived there) and 70_reset_and_hazards.md section 3. A CRYPT keeps a permutation a
permutation, is one step of the pure function, and where its two indices are equal leaves `S` as it was. -/
def Obligations.CryptKeepsThePermutation : Prop :=
  ∀ (b : Byte) (s : State), s.err = 0 → s.ph = .ready → s.S.wf → ∃ t, exec (.crypt b) s = .next t ∧
    t.cipher = ksgStep s.cipher ∧ t.S.wf ∧ (s.S.isPermutation → t.S.isPermutation) ∧ (t.i = t.j → t.S = s.S)

/-- 41_keystream.md section 2 (derived there). The state of the pass after a message depends on the length of the message
alone, and each output byte on its own input byte alone: two messages of one length leave the same `S` and cursors, and
their outputs differ where and as they differ. -/
def Obligations.TheKeystreamDoesNotDependOnTheMessage : Prop :=
  ∀ (m m' : List Byte) (s t t' : State), s.err = 0 → s.ph = .ready → m.length = m'.length →
    acceptAll (m.map fun b => encode (.crypt b)) s = .next t → acceptAll (m'.map fun b => encode (.crypt b)) s = .next t' →
    t.cipher = t'.cipher ∧ ∃ ks : List Byte, ks.length = m.length ∧
      t.out = s.out ++ List.zipWith (fun b z => b ^^^ z) m ks ∧ t'.out = s.out ++ List.zipWith (fun b z => b ^^^ z) m' ks

/-- 41_keystream.md section 2 (derived there). After n CRYPTs from a state of the pass the cursor `i` has moved by n
modulo 256 (so from `i = 0` it is n mod 256), the engine is still READY, and n bytes were emitted. -/
def Obligations.CursorICountsTheBytesModulo256 : Prop :=
  ∀ (m : List Byte) (s t : State), s.err = 0 → s.ph = .ready →
    acceptAll (m.map fun b => encode (.crypt b)) s = .next t →
    t.i.toNat = (s.i.toNat + m.length) % 256 ∧ t.ph = .ready ∧ t.err = 0 ∧ t.out.length = s.out.length + m.length

/-- 70_reset_and_hazards.md section 3. The acts of the host are the model's list (log 1). A step that changes a cursor
starts in READY and is a CRYPT, a FIN, an RST, a hardware reset or a fault; a KSCHED finds the cursors 0 and leaves them
0. -/
def Obligations.CursorsAreNeverResetBetweenBytes : Prop :=
  ∀ s t : State, s.Inv → step s = .next t → (∃ n : Fin 4, t.x n ≠ s.x n) →
    s.ph = .ready ∧ ∃ a rest, s.host = a :: rest ∧
      ((∃ b, a = .command (encode (.crypt b))) ∨ a = .command (encode .fin) ∨ a = .command (encode .rst) ∨
        a = .reset ∨ (∃ c, a = .resetDuring c) ∨ ∃ e, t = raise e (s.setHost rest))

/-- 41_keystream.md R119. FIN in READY zeroises and makes PH IDLE; ERR, OUT and all else stay; in IDLE it raises
BadSequence; faulted it is dropped. -/
def Obligations.FinEndsTheMessage : Prop :=
  encode .fin = 0x0400 ∧ ∀ s : State,
    (s.err = 0 → s.ph = .ready → ∃ t, exec .fin s = .next t ∧ t.holdsNothing ∧ t.ph = .idle ∧ t.err = s.err ∧
      t = { State.reset with err := s.err, out := s.out, taken := s.taken, past := s.past, host := s.host, free := s.free }) ∧
    (s.err = 0 → s.ph = .idle → exec .fin s = .next (raise .badSequence s)) ∧
    (s.err ≠ 0 → exec .fin s = .next s)

/-- 70_reset_and_hazards.md section 3. Whenever an engine that meets the invariants goes from READY to IDLE, or becomes
faulted, nothing of the call survives: key, `S` and cursors are zero. -/
def Obligations.NothingOfACallSurvivesIt : Prop :=
  ∀ s t : State, s.Inv → step s = .next t → (s.ph = .ready ∧ t.ph = .idle) ∨ (s.err = 0 ∧ t.err ≠ 0) → t.holdsNothing

/-! ## The spaces -/

/-- 20_memory.md section 2 and 00_scope.md section 4 (derived there). In a space in canonical form a write has no effect
beyond its entry and a read gives the last byte written; a swap exchanges two entries; the form is kept; and writing the
old byte back, or the same swap again, gives the space there was. -/
def Obligations.SpacesReadBackWhatWasWritten : Prop :=
  (∀ (m : Memory) (a v b : Byte), m.wf →
    (m.write a v).wf ∧ (m.write a v).read a = v ∧ (b ≠ a → (m.write a v).read b = m.read b) ∧
    (m.write a v).write a (m.read a) = m) ∧
  (∀ (m : Memory) (a b c : Byte), m.wf → (m.swap a b).wf ∧ (m.swap a b).read a = m.read b ∧
    (m.swap a b).read b = m.read a ∧ (c ≠ a → c ≠ b → (m.swap a b).read c = m.read c) ∧ (m.swap a b).swap a b = m)

/-! ## Calls -/

/-- 43_transform.md section 1 (derived there). A call on an engine at rest appends to OUT exactly the bytes of the pure
`transform`, for every non-empty key and every message, and leaves the engine at rest and holding nothing; KPUSH, KSCHED,
CRYPT and FIN together compute the source's function, for keys of every length. -/
def Obligations.ACallComputesTransform : Prop :=
  ∀ (message key : List Byte) (s : State), key ≠ [] → s.err = 0 → s.ph = .idle → s.klen = 0 → s.S.wf → s.K.wf →
    ∃ (t : State) (output : List Byte), transform message key = .ok output ∧
      acceptAll (callWords key message) s = .next t ∧ t.out = s.out ++ output ∧
      (∀ n, n < message.length → output.getD n 0 = message.getD n 0 ^^^ keystreamByte key n) ∧
      t = { State.reset with out := t.out, taken := s.taken, past := s.past, host := s.host, free := s.free }

/-- 43_transform.md R142. The output of a call is as long as its message. -/
def Obligations.CallsPreserveLength : Prop :=
  (∀ message key output : List Byte, transform message key = .ok output → output.length = message.length) ∧
  (∀ (message key : List Byte) (s t : State), key ≠ [] → s.err = 0 → s.ph = .idle → s.klen = 0 →
    acceptAll (callWords key message) s = .next t → t.out.length = s.out.length + message.length)

/-- 43_transform.md R143. A second call with the same key on the output of the first gives the message back, in the pure
function and on the machine. -/
def Obligations.ASecondCallWithTheSameKeyRestoresTheMessage : Prop :=
  (∀ message key output : List Byte, transform message key = .ok output → transform output key = .ok message) ∧
  (∀ (message key output : List Byte) (s t : State), key ≠ [] → s.err = 0 → s.ph = .idle → s.klen = 0 → s.S.wf → s.K.wf →
    acceptAll (callWords key message) s = .next t → t.out = s.out ++ output →
    ∃ u, acceptAll (callWords key output) t = .next u ∧ u.out = t.out ++ message)

/-- 43_transform.md R145. The call of the empty message, for every non-empty key, completes and appends nothing. -/
def Obligations.TheEmptyMessageGivesNoOutput : Prop :=
  ∀ key : List Byte, key ≠ [] → transform [] key = .ok [] ∧
    ∀ s : State, s.err = 0 → s.ph = .idle → s.klen = 0 →
      ∃ t, acceptAll (callWords key []) s = .next t ∧ t.out = s.out ∧ t.err = 0 ∧ t.ph = .idle

/-- 43_transform.md R146. The call with the empty key fails with InvalidKey: the engine is faulted, every CRYPT and the
FIN are dropped, STATUS is 0x02 and nothing is appended. -/
def Obligations.TheEmptyKeyFailsWithoutOutput : Prop :=
  ∀ message : List Byte, transform message [] = .error .invalidKey ∧
    ∀ s : State, s.err = 0 → s.ph = .idle → s.klen = 0 →
      acceptAll (callWords [] message) s = .next (raise .invalidKey s) ∧ (raise .invalidKey s).out = s.out ∧
      (raise .invalidKey s).status = 0x02

/-- 43_transform.md (derived there). The output for a prefix of a message is the prefix of the output; more generally two
messages that agree in byte n have outputs that agree in byte n. -/
def Obligations.OutputsOfAPrefixAreThePrefix : Prop :=
  (∀ key m rest output : List Byte, transform (m ++ rest) key = .ok output → transform m key = .ok (output.take m.length)) ∧
  (∀ (key m m' output output' : List Byte) (n : Nat), transform m key = .ok output → transform m' key = .ok output' →
    n < m.length → n < m'.length → m.getD n 0 = m'.getD n 0 → output.getD n 0 = output'.getD n 0)

/-- 43_transform.md R148. After a call the engine is in the reset state but for OUT and the boundary; and the bytes a call
appends do not depend on anything the engine did before. -/
def Obligations.CallsLeaveNoTraceForLaterCalls : Prop :=
  ∀ (key message : List Byte) (s s' t t' : State), key ≠ [] →
    s.err = 0 → s.ph = .idle → s.klen = 0 → s.S.wf → s.K.wf →
    s'.err = 0 → s'.ph = .idle → s'.klen = 0 → s'.S.wf → s'.K.wf →
    acceptAll (callWords key message) s = .next t → acceptAll (callWords key message) s' = .next t' →
    (∃ output, t.out = s.out ++ output ∧ t'.out = s'.out ++ output) ∧
    t = { State.reset with out := t.out, taken := s.taken, past := s.past, host := s.host, free := s.free } ∧
    t' = { State.reset with out := t'.out, taken := s'.taken, past := s'.past, host := s'.host, free := s'.free }

/-- 43_transform.md section 1. NOPs may be interleaved anywhere: a sequence of words does what it does without its
NOPs. -/
def Obligations.InterleavedNopsChangeNothing : Prop :=
  ∀ (ws : List Word) (s : State), acceptAll (ws.filter fun c => c != encode .nop) s = acceptAll ws s

/-! ## The boundary -/

/-- 70_reset_and_hazards.md section 1. A reset pulse is one act of the host, the closed history is kept in `past`, and any
number of the bytes on the port, oldest first, may still be received: the model's choices (log 1, log 2, log 3). A
hardware reset between commands leaves the reset state with OUT empty, keeps the bytes emitted before in an earlier
history, and touches nothing the host is still to do; then the engine waits for its first command. -/
def Obligations.HardwareResetBeginsANewHistory : Prop :=
  (∀ (s : State) (rest : List HostAction), s.host = .reset :: rest → ∃ (t : State) (n : Nat), step s = .next t ∧
    t.holdsNothing ∧ t.ph = .idle ∧ t.err = 0 ∧ t.status = 0x00 ∧ t.faultLine = 0 ∧ t.out = [] ∧ t.host = rest ∧
    t.past = { bytes := s.out, received := n } :: s.past ∧ s.taken ≤ n ∧ n ≤ s.taken + s.onPort.length) ∧
  (∀ s : State, s.host = [] → step s = .next s)

/-- 70_reset_and_hazards.md section 1. The form of the act and the free values are the model's (log 1, log 3). A hardware
reset while a command executes leaves the reset state whatever the command was; if the command was a CRYPT that would emit
a byte, the closed history has it or not (a free value: both are admitted), else it is OUT as it was; the host received of
it what it had taken and from none to all of what stood on the port. -/
def Obligations.ResetDuringACommandAbandonsIt : Prop :=
  ∀ (s : State) (c : Word) (rest : List HostAction), s.host = .resetDuring c :: rest →
    ∃ (t : State) (bytes : List Byte) (n : Nat), step s = .next t ∧
      t = { State.reset with past := t.past, host := rest, free := t.free } ∧
      t.past = { bytes := bytes, received := n } :: s.past ∧
      s.taken ≤ n ∧ n ≤ s.taken + (bytes.drop s.taken).length ∧
      (bytes = s.out ∨ ∃ b, c = encode (.crypt b) ∧ s.ph = .ready ∧ s.err = 0 ∧
        bytes = s.out ++ [b ^^^ (ksgStep s.cipher).z])

/-- 20_memory.md section 2 (derived there). The host takes the oldest byte from the output port and nothing else of the
engine changes: OUT is the whole history; where no byte stands on the port nothing changes (log 5). -/
def Obligations.TakingAByteConsumesItFromThePortOnly : Prop :=
  ∀ (s : State) (rest : List HostAction), s.host = .takeByte :: rest → ∃ t, step s = .next t ∧
    t = { s with host := rest, taken := t.taken } ∧
    (∀ (b : Byte) (others : List Byte), s.onPort = b :: others → t.onPort = others) ∧ (s.onPort = [] → t.taken = s.taken)

/-- 60_exceptions.md section 5 and 20_memory.md section 3, over the model's platform of n engines (log 10). A step of one
engine leaves every other as it is and is its own step, steps of two engines commute, every engine starts in the reset
state; so in every schedule each engine ends where it ends alone: instances share no state whatever. -/
def Obligations.EnginesShareNoState : Prop :=
  (∀ (n : Nat) (e : Fin n), (Platform.reset n).engine e = State.reset) ∧
  (∀ (n : Nat) (e : Fin n) (p p' : Platform n), Platform.step e p = .next p' →
    step (p.engine e) = .next (p'.engine e) ∧ ∀ e', e' ≠ e → p'.engine e' = p.engine e') ∧
  (∀ (n : Nat) (e e' : Fin n) (p : Platform n), e ≠ e' →
    Platform.runSchedule [e, e'] p = Platform.runSchedule [e', e] p) ∧
  (∀ (n : Nat) (schedule : List (Fin n)) (e : Fin n) (p : Platform n), ∃ p', Platform.runSchedule schedule p = .next p' ∧
    Host.Core.run core (schedule.count e) (p.engine e) = .next (p'.engine e))
end

