-- ==== Sys2Proof/Laws/PerInstr.lean ====
section
/-! SUPPORT. Statements about every instruction as syntax, one lemma per constructor. -/

namespace Sys2Proof.Laws

/-- The decoder reads back the instruction that the encoder wrote (30_encoding.md R72). -/
def RoundTrip.Statement (i : Instr) : Prop := decode (encode i) = .ok i

theorem RoundTrip.nop : RoundTrip.Statement .nop := by unfold RoundTrip.Statement; rfl
theorem RoundTrip.kpush (imm8 : Byte) : RoundTrip.Statement (.kpush imm8) := by
  unfold RoundTrip.Statement; revert imm8; decide
theorem RoundTrip.ksched : RoundTrip.Statement .ksched := by unfold RoundTrip.Statement; rfl
theorem RoundTrip.crypt (imm8 : Byte) : RoundTrip.Statement (.crypt imm8) := by
  unfold RoundTrip.Statement; revert imm8; decide
theorem RoundTrip.fin : RoundTrip.Statement .fin := by unfold RoundTrip.Statement; rfl
theorem RoundTrip.rst : RoundTrip.Statement .rst := by unfold RoundTrip.Statement; rfl

/-- An instruction is well formed, and so are the fields of its word (30_encoding.md R71, R74). -/
def LegalWord.Statement (i : Instr) : Prop :=
  wellFormed i = true ∧ wellFormedFields (opField (encode i)) (immField (encode i)) = true

theorem LegalWord.nop : LegalWord.Statement .nop := by unfold LegalWord.Statement; decide
theorem LegalWord.kpush (imm8 : Byte) : LegalWord.Statement (.kpush imm8) := by
  unfold LegalWord.Statement; revert imm8; decide
theorem LegalWord.ksched : LegalWord.Statement .ksched := by unfold LegalWord.Statement; decide
theorem LegalWord.crypt (imm8 : Byte) : LegalWord.Statement (.crypt imm8) := by
  unfold LegalWord.Statement; revert imm8; decide
theorem LegalWord.fin : LegalWord.Statement .fin := by unfold LegalWord.Statement; decide
theorem LegalWord.rst : LegalWord.Statement .rst := by unfold LegalWord.Statement; decide

end Sys2Proof.Laws
end

