-- ==== Sys2Proof/Laws/Decode.lean ====
section
/-! SUPPORT. The fields of a word, and the words that decode to an instruction. -/

namespace Sys2Proof

@[simp] theorem opField_wordOf (op imm8 : Byte) : opField (wordOf op imm8) = op := by
  apply BitVec.eq_of_getLsbD_eq
  intro i hi
  simp only [opField, wordOf, BitVec.getLsbD_extractLsb', BitVec.getLsbD_append, hi, decide_true, Bool.true_and]
  simp

@[simp] theorem immField_wordOf (op imm8 : Byte) : immField (wordOf op imm8) = imm8 := by
  apply BitVec.eq_of_getLsbD_eq
  intro i hi
  simp only [immField, wordOf, BitVec.getLsbD_extractLsb', BitVec.getLsbD_append, hi, decide_true, Bool.true_and]
  simp [hi]

@[simp] theorem wordOf_fields (c : Word) : wordOf (opField c) (immField c) = c := by
  apply BitVec.eq_of_getLsbD_eq
  intro i hi
  simp only [wordOf, opField, immField, BitVec.getLsbD_append, BitVec.getLsbD_extractLsb']
  by_cases h : i < 8
  · simp [h]
  · simp [h, show i - 8 < 8 by omega, show 8 + (i - 8) = i by omega]

/-- The rows of the opcode map do not overlap: no word is selected by two of them (30_encoding.md R72). -/
theorem opcodeMap_disjoint (c : Word) :
    opcodeMap.Pairwise fun r r' => ¬ (r.selects c = true ∧ r'.selects c = true) := by
  have h1 : ∀ p q : Word, c &&& 0xFF00 = p → c &&& 0xFFFF = q → q &&& 0xFF00 = p := by
    rintro p q rfl rfl; simp [BitVec.and_assoc]
  simp only [opcodeMap, OpcodeRow.selects, List.pairwise_cons, List.mem_cons, List.not_mem_nil, or_false, beq_iff_eq,
    forall_eq_or_imp, forall_eq, false_imp_iff, implies_true, List.Pairwise.nil, and_true]
  refine ⟨⟨?_, ?_, ?_, ?_, ?_⟩, ⟨?_, ?_, ?_, ?_⟩, ⟨?_, ?_, ?_⟩, ⟨?_, ?_⟩, ?_⟩ <;> rintro ⟨ha, hb⟩ <;>
    first
      | exact absurd (h1 _ _ ha hb) (by decide)
      | exact absurd (h1 _ _ hb ha) (by decide)
      | exact absurd (ha.symm.trans hb) (by decide)

/-- A mask of the opcode byte selects by the opcode alone. -/
theorem and_opMask (op imm8 : Byte) : wordOf op imm8 &&& 0xFF00 = wordOf op 0 := by
  apply BitVec.eq_of_getLsbD_eq
  intro i hi
  have hmask : ∀ i < 16, (0xFF00 : Word).getLsbD i = decide (8 ≤ i) := by decide
  rw [BitVec.getLsbD_and, hmask i hi]
  by_cases h : i < 8
  · have : ¬ 8 ≤ i := by omega
    simp only [wordOf, BitVec.getLsbD_append, h, this]
    simp
  · have : 8 ≤ i := by omega
    simp only [wordOf, BitVec.getLsbD_append, h, this]
    simp

theorem usedOpcode : ∀ {op : Byte}, op.toNat ≤ 5 → op = 0 ∨ op = 1 ∨ op = 2 ∨ op = 3 ∨ op = 4 ∨ op = 5 := by decide

/-- The decoder by fields: the opcode number selects, and a command without operand wants `imm8 = 0x00` (30_encoding.md R71, R72). -/
theorem decode_wordOf (op imm8 : Byte) : decode (wordOf op imm8) =
    if op = 0x01 then .ok (.kpush imm8) else if op = 0x03 then .ok (.crypt imm8)
    else if 5 < op.toNat then .error .unusedOpcode else if imm8 ≠ 0 then .error .operandNotZero
    else if op = 0x00 then .ok .nop else if op = 0x02 then .ok .ksched else if op = 0x04 then .ok .fin else .ok .rst := by
  have hw : ∀ p q : Byte, wordOf op imm8 = wordOf p q ↔ op = p ∧ imm8 = q := fun p q =>
    ⟨fun h => ⟨by simpa using congrArg opField h, by simpa using congrArg immField h⟩, by rintro ⟨rfl, rfl⟩; rfl⟩
  have hm : ∀ p : Byte, wordOf op imm8 &&& 0xFF00 = wordOf p 0 ↔ op = p := fun p => by
    rw [and_opMask]
    exact ⟨fun h => by simpa using congrArg opField h, by rintro rfl; rfl⟩
  have hf : ∀ c : Word, c &&& 0xFFFF = c := fun c => BitVec.and_allOnes
  have e0 : (0x0000 : Word) = wordOf 0 0 := by decide
  have e1 : (0x0100 : Word) = wordOf 1 0 := by decide
  have e2 : (0x0200 : Word) = wordOf 2 0 := by decide
  have e3 : (0x0300 : Word) = wordOf 3 0 := by decide
  have e4 : (0x0400 : Word) = wordOf 4 0 := by decide
  have e5 : (0x0500 : Word) = wordOf 5 0 := by decide
  simp only [decode, opcodeMap, OpcodeRow.selects, List.find?_cons, List.find?_nil, hf, opField_wordOf, immField_wordOf,
    opcodeInUse]
  rw [e0, e1, e2, e3, e4, e5]
  simp only [beq_eq_decide, hw, hm]
  by_cases h5 : op.toNat ≤ 5
  · rcases usedOpcode h5 with rfl | rfl | rfl | rfl | rfl | rfl <;> by_cases hi : imm8 = 0#8 <;> simp [hi]
  · have hne : ∀ p : Byte, p.toNat ≤ 5 → op ≠ p := by rintro p hp rfl; exact h5 hp
    have g0 := hne 0 (by decide)
    have g1 := hne 1 (by decide)
    have g2 := hne 2 (by decide)
    have g3 := hne 3 (by decide)
    have g4 := hne 4 (by decide)
    have g5 := hne 5 (by decide)
    simp only [g0, g1, g2, g3, g4, g5, h5, show 5 < op.toNat by omega, false_and, decide_false, if_true, if_false]
    rfl

/-- The decoder of any word, by its fields. -/
theorem decode_fields (c : Word) : decode c = decode (wordOf (opField c) (immField c)) := by
  rw [wordOf_fields]

/-- Each legal word is the encoding of the one instruction it decodes to (30_encoding.md R72). -/
theorem encode_of_decode {c : Word} {i : Instr} (h : decode c = .ok i) : encode i = c := by
  rw [decode_fields, decode_wordOf] at h
  rw [← wordOf_fields c]
  generalize opField c = op at h ⊢
  generalize immField c = imm8 at h ⊢
  by_cases h5 : op.toNat ≤ 5
  · rcases usedOpcode h5 with rfl | rfl | rfl | rfl | rfl | rfl <;> by_cases hi : imm8 = 0#8 <;> simp [hi] at h <;>
      subst h <;> simp [encode, opcodeOf, operandOf, hi]
  · have g1 : op ≠ 1 := by rintro rfl; exact h5 (by decide)
    have g3 : op ≠ 3 := by rintro rfl; exact h5 (by decide)
    rw [if_neg g1, if_neg g3, if_pos (by omega)] at h
    exact absurd h (by simp)

end Sys2Proof
end

