-- ==== Sys2Proof/Laws/Memory.lean ====
section
/-! SUPPORT. The two byte spaces: a read after a write, the canonical form kept by every operation, and equal spaces from equal
reads. -/

namespace Sys2Proof.Machine.Memory

/-! ## Reading -/

@[simp] theorem read_zero (a : Byte) : zero.read a = 0 := rfl

@[simp] theorem readAt_nil (a : Nat) : readAt [] a = unlisted := rfl

theorem readAt_cons (c : Host.Cell) (rest : Memory) (a : Nat) :
    readAt (c :: rest) a = if c.1 = a then c.2 else readAt rest a := rfl

/-- An address below every listed one is not listed. -/
theorem readAt_of_lt {m : Memory} {a : Nat} (h : ∀ c ∈ m, a < c.1) : m.readAt a = unlisted := by
  induction m with
  | nil => rfl
  | cons c rest ih =>
    rw [readAt_cons, if_neg (by have := h c (by simp); omega)]
    exact ih fun d hd => h d (by simp [hd])

theorem readAt_cell_same {m : Memory} {a : Nat} (v : Byte) (h : ∀ c ∈ m, a < c.1) : (cell a v m).readAt a = v := by
  unfold cell
  split
  · rw [readAt_of_lt h]; simp_all
  · simp [readAt_cons]

theorem readAt_cell_other {m : Memory} {a b : Nat} (v : Byte) (h : b ≠ a) : (cell a v m).readAt b = m.readAt b := by
  unfold cell
  split
  · rfl
  · rw [readAt_cons, if_neg (by simpa using fun e => h e.symm)]

/-- Strictly rising addresses, the first half of the canonical form. -/
abbrev Sorted (m : Memory) : Prop := m.Pairwise fun x y => x.1 < y.1

theorem readAt_writeAt {m : Memory} (hm : m.Sorted) (a : Nat) (v : Byte) (b : Nat) :
    (m.writeAt a v).readAt b = if b = a then v else m.readAt b := by
  induction m with
  | nil =>
    by_cases h : b = a
    · subst h; simpa [writeAt] using readAt_cell_same v (by simp)
    · rw [if_neg h]; exact readAt_cell_other v h
  | cons c rest ih =>
    obtain ⟨hc, hrest⟩ := List.pairwise_cons.1 hm
    obtain ⟨d, w⟩ := c
    simp only at hc
    unfold writeAt
    split
    · rename_i hlt
      by_cases h : b = a
      · subst h
        rw [if_pos rfl, readAt_cell_same]
        intro e he
        rcases List.mem_cons.1 he with rfl | he
        · exact hlt
        · have := hc e he; omega
      · rw [if_neg h, readAt_cell_other v h]
    · split
      · rename_i hlt heq
        subst heq
        by_cases h : b = a
        · subst h; rw [if_pos rfl, readAt_cell_same v hc]
        · rw [if_neg h, readAt_cell_other v h, readAt_cons, if_neg (fun e => h e.symm)]
      · rename_i hlt hne
        rw [readAt_cons, readAt_cons, ih hrest]
        by_cases h : d = b
        · subst h; simp; intro h; exact absurd h.symm hne
        · simp [h]

/-- A read after a write: the byte written at its address, the byte before at every other (20_memory.md R59). -/
theorem read_write {m : Memory} (hm : m.wf) (a v b : Byte) :
    (m.write a v).read b = if b = a then v else m.read b := by
  simp only [read, write, readAt_writeAt hm.1, BitVec.toNat_inj]

@[simp] theorem read_write_same {m : Memory} (hm : m.wf) (a v : Byte) : (m.write a v).read a = v := by
  simp [read_write hm]

theorem read_write_other {m : Memory} (hm : m.wf) {a b : Byte} (v : Byte) (h : b ≠ a) :
    (m.write a v).read b = m.read b := by
  simp [read_write hm, h]

/-! ## The canonical form -/

theorem wf_nil : wf [] := ⟨List.Pairwise.nil, fun _ hc => absurd hc List.not_mem_nil⟩

theorem wf_zero : zero.wf := wf_nil

theorem mem_cell {m : Memory} {a : Nat} {v : Byte} {c : Host.Cell} (h : c ∈ cell a v m) :
    (c = (a, v) ∧ v ≠ unlisted) ∨ c ∈ m := by
  unfold cell at h
  split at h
  · exact .inr h
  · rcases List.mem_cons.1 h with h | h
    · exact .inl ⟨h, ‹_›⟩
    · exact .inr h

theorem mem_writeAt {m : Memory} {a : Nat} {v : Byte} {c : Host.Cell} (h : c ∈ m.writeAt a v) :
    (c = (a, v) ∧ v ≠ unlisted) ∨ c ∈ m := by
  induction m with
  | nil => exact mem_cell h
  | cons d rest ih =>
    obtain ⟨b, w⟩ := d
    unfold writeAt at h
    split at h
    · exact mem_cell h
    · split at h
      · rcases mem_cell h with h | h
        · exact .inl h
        · exact .inr (List.mem_cons_of_mem _ h)
      · rcases List.mem_cons.1 h with h | h
        · exact .inr (h ▸ List.mem_cons_self ..)
        · rcases ih h with h | h
          · exact .inl h
          · exact .inr (List.mem_cons_of_mem _ h)

theorem sorted_cell {m : Memory} {a : Nat} {v : Byte} (hm : m.Sorted) (h : ∀ c ∈ m, a < c.1) : (cell a v m).Sorted := by
  unfold cell
  split
  · exact hm
  · exact List.pairwise_cons.2 ⟨fun c hc => h c hc, hm⟩

theorem sorted_writeAt {m : Memory} (hm : m.Sorted) (a : Nat) (v : Byte) : (m.writeAt a v).Sorted := by
  induction m with
  | nil => exact sorted_cell (by simp) (by simp)
  | cons d rest ih =>
    obtain ⟨hd, hrest⟩ := List.pairwise_cons.1 hm
    obtain ⟨b, w⟩ := d
    simp only at hd
    unfold writeAt
    split
    · refine sorted_cell hm fun e he => ?_
      rcases List.mem_cons.1 he with rfl | he
      · assumption
      · have := hd e he; omega
    · split
      · rename_i heq
        subst heq
        exact sorted_cell hrest hd
      · refine List.pairwise_cons.2 ⟨fun e he => ?_, ih hrest⟩
        rcases mem_writeAt he with ⟨rfl, _⟩ | he
        · simp only; omega
        · exact hd e he

/-- A write keeps the canonical form. -/
theorem wf_write {m : Memory} (hm : m.wf) (a v : Byte) : (m.write a v).wf := by
  refine ⟨sorted_writeAt hm.1 _ _, fun c hc => ?_⟩
  rcases mem_writeAt hc with ⟨rfl, hv⟩ | hc
  · exact ⟨a.isLt, hv⟩
  · exact hm.2 c hc

/-- A swap keeps the canonical form. -/
theorem wf_swap {m : Memory} (hm : m.wf) (a b : Byte) : (m.swap a b).wf :=
  wf_write (wf_write hm _ _) _ _

/-- A run of writes keeps the canonical form. -/
theorem wf_foldl_write {m : Memory} (hm : m.wf) (f : Byte → Byte) (l : List Byte) :
    (l.foldl (fun m n => m.write n (f n)) m).wf := by
  induction l generalizing m with
  | nil => exact hm
  | cons n rest ih => exact ih (wf_write hm _ _)

/-- The identity fill keeps the canonical form. -/
theorem wf_fillIdentity {m : Memory} (hm : m.wf) : m.fillIdentity.wf :=
  wf_foldl_write hm id allBytes

/-- An address outside the space is not listed. -/
theorem readAt_outside {m : Memory} (hm : m.wf) {a : Nat} (h : 256 ≤ a) : m.readAt a = unlisted := by
  have hm := hm.2
  clear * - hm h
  induction m with
  | nil => rfl
  | cons c rest ih =>
    have hc : c.1 < 256 := (hm c (by simp)).1
    rw [readAt_cons, if_neg (by omega)]
    exact ih fun d hd => hm d (by simp [hd])

/-! ## Equal reads make equal spaces -/

theorem eq_of_readAt {m m' : Memory} (hm : m.wf) (hm' : m'.wf) (h : ∀ a, m.readAt a = m'.readAt a) : m = m' := by
  induction m generalizing m' with
  | nil =>
    cases m' with
    | nil => rfl
    | cons c rest =>
      have := h c.1
      simp [readAt_cons] at this
      exact absurd this.symm (hm'.2 c (by simp)).2
  | cons c rest ih =>
    cases m' with
    | nil =>
      have := h c.1
      simp [readAt_cons] at this
      exact absurd this (hm.2 c (by simp)).2
    | cons d rest' =>
      obtain ⟨hc, hrest⟩ := List.pairwise_cons.1 hm.1
      obtain ⟨hd, hrest'⟩ := List.pairwise_cons.1 hm'.1
      have hcv := (hm.2 c (by simp)).2
      have hdv := (hm'.2 d (by simp)).2
      have hcd : c.1 = d.1 := by
        rcases Nat.lt_trichotomy c.1 d.1 with hlt | heq | hlt
        · have := h c.1
          rw [readAt_cons, if_pos rfl, readAt_of_lt] at this
          · exact absurd this hcv
          · intro e he
            rcases List.mem_cons.1 he with rfl | he
            · exact hlt
            · have := hd e he; omega
        · exact heq
        · have := h d.1
          rw [readAt_cons d, if_pos rfl, readAt_of_lt] at this
          · exact absurd this.symm hdv
          · intro e he
            rcases List.mem_cons.1 he with rfl | he
            · exact hlt
            · have := hc e he; omega
      have hval : c.2 = d.2 := by
        have := h c.1
        rwa [readAt_cons, if_pos rfl, readAt_cons, if_pos hcd.symm] at this
      have hrests : rest = rest' := by
        refine ih ⟨hrest, fun e he => hm.2 e (by simp [he])⟩ ⟨hrest', fun e he => hm'.2 e (by simp [he])⟩ fun a => ?_
        have := h a
        rw [readAt_cons, readAt_cons, ← hcd] at this
        by_cases ha : c.1 = a
        · subst ha
          rw [readAt_of_lt hc, readAt_of_lt (fun e he => hcd ▸ hd e he)]
        · simpa [ha] using this
      rw [hrests, show c = d from Prod.ext hcd hval]

/-- Two spaces in canonical form that read alike at every byte are equal. -/
theorem ext {m m' : Memory} (hm : m.wf) (hm' : m'.wf) (h : ∀ a : Byte, m.read a = m'.read a) : m = m' := by
  refine eq_of_readAt hm hm' fun a => ?_
  by_cases ha : a < 256
  · simpa [read, Nat.mod_eq_of_lt ha] using h (BitVec.ofNat 8 a)
  · rw [readAt_outside hm (by omega), readAt_outside hm' (by omega)]

/-! ## The swap and the identity -/

/-- What a swap leaves: the two entries exchanged, every other entry as before (00_scope.md R9). -/
theorem read_swap {m : Memory} (hm : m.wf) (a b c : Byte) :
    (m.swap a b).read c = if c = b then m.read a else if c = a then m.read b else m.read c := by
  simp only [swap]
  rw [read_write (wf_write hm _ _), read_write hm]

/-- A swap of an entry with itself changes nothing (70_reset_and_hazards.md R198). -/
theorem swap_self {m : Memory} (hm : m.wf) (a : Byte) : m.swap a a = m :=
  ext (wf_swap hm a a) hm fun c => by rw [read_swap hm]; split <;> simp_all

theorem mem_allBytes (b : Byte) : b ∈ allBytes := by
  unfold allBytes
  exact List.mem_map.2 ⟨b.toNat, List.mem_range.2 b.isLt, by simp⟩

/-- What a run of writes leaves: the last byte written at an address it lists, the byte before at every other. -/
theorem read_foldl_write {m : Memory} (hm : m.wf) (f : Byte → Byte) (l : List Byte) (b : Byte) :
    (l.foldl (fun m n => m.write n (f n)) m).read b = if b ∈ l then f b else m.read b := by
  induction l generalizing m with
  | nil => simp
  | cons n rest ih =>
    rw [List.foldl_cons, ih (wf_write hm _ _), read_write hm]
    by_cases hb : b ∈ rest
    · simp [hb]
    · by_cases hn : b = n <;> simp [hb, hn]

/-- The identity fill makes every entry its own index (40_key_schedule.md R94 line 2). -/
theorem read_fillIdentity {m : Memory} (hm : m.wf) (b : Byte) : m.fillIdentity.read b = b :=
  (read_foldl_write hm id allBytes b).trans (if_pos (mem_allBytes b))

/-- The identity does not depend on what the space held before (40_key_schedule.md R100). -/
theorem fillIdentity_eq {m m' : Memory} (hm : m.wf) (hm' : m'.wf) : m.fillIdentity = m'.fillIdentity :=
  ext (wf_fillIdentity hm) (wf_fillIdentity hm') fun b => by rw [read_fillIdentity hm, read_fillIdentity hm']

/-- Writing 0 everywhere is the space with nothing listed (10_state.md R36). -/
theorem foldl_write_zero {m : Memory} (hm : m.wf) : allBytes.foldl (fun m n => m.write n 0) m = zero :=
  ext (wf_foldl_write hm (fun _ => 0) allBytes) wf_zero fun b =>
    (read_foldl_write hm (fun _ => 0) allBytes b).trans (if_pos (mem_allBytes b))

end Sys2Proof.Machine.Memory
end

