-- ==== Sys2Proof/Laws/State.lean ====
section
/-! SUPPORT. One lemma per field per update of State, true by definition: what a named update and a shared operation leave in
each field, so that no later proof unfolds a record update. -/

namespace Sys2Proof.Machine

variable (s : State)

/-! ### setS -/

@[simp] theorem State.setS_S (v : Memory) : (s.setS v).S = v := rfl
@[simp] theorem State.setS_K (v : Memory) : (s.setS v).K = s.K := rfl
@[simp] theorem State.setS_i (v : Memory) : (s.setS v).i = s.i := rfl
@[simp] theorem State.setS_j (v : Memory) : (s.setS v).j = s.j := rfl
@[simp] theorem State.setS_k (v : Memory) : (s.setS v).k = s.k := rfl
@[simp] theorem State.setS_z (v : Memory) : (s.setS v).z = s.z := rfl
@[simp] theorem State.setS_klen (v : Memory) : (s.setS v).klen = s.klen := rfl
@[simp] theorem State.setS_ph (v : Memory) : (s.setS v).ph = s.ph := rfl
@[simp] theorem State.setS_err (v : Memory) : (s.setS v).err = s.err := rfl
@[simp] theorem State.setS_out (v : Memory) : (s.setS v).out = s.out := rfl
@[simp] theorem State.setS_taken (v : Memory) : (s.setS v).taken = s.taken := rfl
@[simp] theorem State.setS_past (v : Memory) : (s.setS v).past = s.past := rfl
@[simp] theorem State.setS_host (v : Memory) : (s.setS v).host = s.host := rfl
@[simp] theorem State.setS_free (v : Memory) : (s.setS v).free = s.free := rfl

/-! ### setKeys -/

@[simp] theorem State.setKeys_S (v : Memory) : (s.setKeys v).S = s.S := rfl
@[simp] theorem State.setKeys_K (v : Memory) : (s.setKeys v).K = v := rfl
@[simp] theorem State.setKeys_i (v : Memory) : (s.setKeys v).i = s.i := rfl
@[simp] theorem State.setKeys_j (v : Memory) : (s.setKeys v).j = s.j := rfl
@[simp] theorem State.setKeys_k (v : Memory) : (s.setKeys v).k = s.k := rfl
@[simp] theorem State.setKeys_z (v : Memory) : (s.setKeys v).z = s.z := rfl
@[simp] theorem State.setKeys_klen (v : Memory) : (s.setKeys v).klen = s.klen := rfl
@[simp] theorem State.setKeys_ph (v : Memory) : (s.setKeys v).ph = s.ph := rfl
@[simp] theorem State.setKeys_err (v : Memory) : (s.setKeys v).err = s.err := rfl
@[simp] theorem State.setKeys_out (v : Memory) : (s.setKeys v).out = s.out := rfl
@[simp] theorem State.setKeys_taken (v : Memory) : (s.setKeys v).taken = s.taken := rfl
@[simp] theorem State.setKeys_past (v : Memory) : (s.setKeys v).past = s.past := rfl
@[simp] theorem State.setKeys_host (v : Memory) : (s.setKeys v).host = s.host := rfl
@[simp] theorem State.setKeys_free (v : Memory) : (s.setKeys v).free = s.free := rfl

/-! ### setI -/

@[simp] theorem State.setI_S (v : Byte) : (s.setI v).S = s.S := rfl
@[simp] theorem State.setI_K (v : Byte) : (s.setI v).K = s.K := rfl
@[simp] theorem State.setI_i (v : Byte) : (s.setI v).i = v := rfl
@[simp] theorem State.setI_j (v : Byte) : (s.setI v).j = s.j := rfl
@[simp] theorem State.setI_k (v : Byte) : (s.setI v).k = s.k := rfl
@[simp] theorem State.setI_z (v : Byte) : (s.setI v).z = s.z := rfl
@[simp] theorem State.setI_klen (v : Byte) : (s.setI v).klen = s.klen := rfl
@[simp] theorem State.setI_ph (v : Byte) : (s.setI v).ph = s.ph := rfl
@[simp] theorem State.setI_err (v : Byte) : (s.setI v).err = s.err := rfl
@[simp] theorem State.setI_out (v : Byte) : (s.setI v).out = s.out := rfl
@[simp] theorem State.setI_taken (v : Byte) : (s.setI v).taken = s.taken := rfl
@[simp] theorem State.setI_past (v : Byte) : (s.setI v).past = s.past := rfl
@[simp] theorem State.setI_host (v : Byte) : (s.setI v).host = s.host := rfl
@[simp] theorem State.setI_free (v : Byte) : (s.setI v).free = s.free := rfl

/-! ### setJ -/

@[simp] theorem State.setJ_S (v : Byte) : (s.setJ v).S = s.S := rfl
@[simp] theorem State.setJ_K (v : Byte) : (s.setJ v).K = s.K := rfl
@[simp] theorem State.setJ_i (v : Byte) : (s.setJ v).i = s.i := rfl
@[simp] theorem State.setJ_j (v : Byte) : (s.setJ v).j = v := rfl
@[simp] theorem State.setJ_k (v : Byte) : (s.setJ v).k = s.k := rfl
@[simp] theorem State.setJ_z (v : Byte) : (s.setJ v).z = s.z := rfl
@[simp] theorem State.setJ_klen (v : Byte) : (s.setJ v).klen = s.klen := rfl
@[simp] theorem State.setJ_ph (v : Byte) : (s.setJ v).ph = s.ph := rfl
@[simp] theorem State.setJ_err (v : Byte) : (s.setJ v).err = s.err := rfl
@[simp] theorem State.setJ_out (v : Byte) : (s.setJ v).out = s.out := rfl
@[simp] theorem State.setJ_taken (v : Byte) : (s.setJ v).taken = s.taken := rfl
@[simp] theorem State.setJ_past (v : Byte) : (s.setJ v).past = s.past := rfl
@[simp] theorem State.setJ_host (v : Byte) : (s.setJ v).host = s.host := rfl
@[simp] theorem State.setJ_free (v : Byte) : (s.setJ v).free = s.free := rfl

/-! ### setK -/

@[simp] theorem State.setK_S (v : Byte) : (s.setK v).S = s.S := rfl
@[simp] theorem State.setK_K (v : Byte) : (s.setK v).K = s.K := rfl
@[simp] theorem State.setK_i (v : Byte) : (s.setK v).i = s.i := rfl
@[simp] theorem State.setK_j (v : Byte) : (s.setK v).j = s.j := rfl
@[simp] theorem State.setK_k (v : Byte) : (s.setK v).k = v := rfl
@[simp] theorem State.setK_z (v : Byte) : (s.setK v).z = s.z := rfl
@[simp] theorem State.setK_klen (v : Byte) : (s.setK v).klen = s.klen := rfl
@[simp] theorem State.setK_ph (v : Byte) : (s.setK v).ph = s.ph := rfl
@[simp] theorem State.setK_err (v : Byte) : (s.setK v).err = s.err := rfl
@[simp] theorem State.setK_out (v : Byte) : (s.setK v).out = s.out := rfl
@[simp] theorem State.setK_taken (v : Byte) : (s.setK v).taken = s.taken := rfl
@[simp] theorem State.setK_past (v : Byte) : (s.setK v).past = s.past := rfl
@[simp] theorem State.setK_host (v : Byte) : (s.setK v).host = s.host := rfl
@[simp] theorem State.setK_free (v : Byte) : (s.setK v).free = s.free := rfl

/-! ### setZ -/

@[simp] theorem State.setZ_S (v : Byte) : (s.setZ v).S = s.S := rfl
@[simp] theorem State.setZ_K (v : Byte) : (s.setZ v).K = s.K := rfl
@[simp] theorem State.setZ_i (v : Byte) : (s.setZ v).i = s.i := rfl
@[simp] theorem State.setZ_j (v : Byte) : (s.setZ v).j = s.j := rfl
@[simp] theorem State.setZ_k (v : Byte) : (s.setZ v).k = s.k := rfl
@[simp] theorem State.setZ_z (v : Byte) : (s.setZ v).z = v := rfl
@[simp] theorem State.setZ_klen (v : Byte) : (s.setZ v).klen = s.klen := rfl
@[simp] theorem State.setZ_ph (v : Byte) : (s.setZ v).ph = s.ph := rfl
@[simp] theorem State.setZ_err (v : Byte) : (s.setZ v).err = s.err := rfl
@[simp] theorem State.setZ_out (v : Byte) : (s.setZ v).out = s.out := rfl
@[simp] theorem State.setZ_taken (v : Byte) : (s.setZ v).taken = s.taken := rfl
@[simp] theorem State.setZ_past (v : Byte) : (s.setZ v).past = s.past := rfl
@[simp] theorem State.setZ_host (v : Byte) : (s.setZ v).host = s.host := rfl
@[simp] theorem State.setZ_free (v : Byte) : (s.setZ v).free = s.free := rfl

/-! ### setKlen -/

@[simp] theorem State.setKlen_S (v : BitVec 9) : (s.setKlen v).S = s.S := rfl
@[simp] theorem State.setKlen_K (v : BitVec 9) : (s.setKlen v).K = s.K := rfl
@[simp] theorem State.setKlen_i (v : BitVec 9) : (s.setKlen v).i = s.i := rfl
@[simp] theorem State.setKlen_j (v : BitVec 9) : (s.setKlen v).j = s.j := rfl
@[simp] theorem State.setKlen_k (v : BitVec 9) : (s.setKlen v).k = s.k := rfl
@[simp] theorem State.setKlen_z (v : BitVec 9) : (s.setKlen v).z = s.z := rfl
@[simp] theorem State.setKlen_klen (v : BitVec 9) : (s.setKlen v).klen = v := rfl
@[simp] theorem State.setKlen_ph (v : BitVec 9) : (s.setKlen v).ph = s.ph := rfl
@[simp] theorem State.setKlen_err (v : BitVec 9) : (s.setKlen v).err = s.err := rfl
@[simp] theorem State.setKlen_out (v : BitVec 9) : (s.setKlen v).out = s.out := rfl
@[simp] theorem State.setKlen_taken (v : BitVec 9) : (s.setKlen v).taken = s.taken := rfl
@[simp] theorem State.setKlen_past (v : BitVec 9) : (s.setKlen v).past = s.past := rfl
@[simp] theorem State.setKlen_host (v : BitVec 9) : (s.setKlen v).host = s.host := rfl
@[simp] theorem State.setKlen_free (v : BitVec 9) : (s.setKlen v).free = s.free := rfl

/-! ### setPh -/

@[simp] theorem State.setPh_S (v : Phase) : (s.setPh v).S = s.S := rfl
@[simp] theorem State.setPh_K (v : Phase) : (s.setPh v).K = s.K := rfl
@[simp] theorem State.setPh_i (v : Phase) : (s.setPh v).i = s.i := rfl
@[simp] theorem State.setPh_j (v : Phase) : (s.setPh v).j = s.j := rfl
@[simp] theorem State.setPh_k (v : Phase) : (s.setPh v).k = s.k := rfl
@[simp] theorem State.setPh_z (v : Phase) : (s.setPh v).z = s.z := rfl
@[simp] theorem State.setPh_klen (v : Phase) : (s.setPh v).klen = s.klen := rfl
@[simp] theorem State.setPh_ph (v : Phase) : (s.setPh v).ph = v := rfl
@[simp] theorem State.setPh_err (v : Phase) : (s.setPh v).err = s.err := rfl
@[simp] theorem State.setPh_out (v : Phase) : (s.setPh v).out = s.out := rfl
@[simp] theorem State.setPh_taken (v : Phase) : (s.setPh v).taken = s.taken := rfl
@[simp] theorem State.setPh_past (v : Phase) : (s.setPh v).past = s.past := rfl
@[simp] theorem State.setPh_host (v : Phase) : (s.setPh v).host = s.host := rfl
@[simp] theorem State.setPh_free (v : Phase) : (s.setPh v).free = s.free := rfl

/-! ### setErr -/

@[simp] theorem State.setErr_S (v : BitVec 3) : (s.setErr v).S = s.S := rfl
@[simp] theorem State.setErr_K (v : BitVec 3) : (s.setErr v).K = s.K := rfl
@[simp] theorem State.setErr_i (v : BitVec 3) : (s.setErr v).i = s.i := rfl
@[simp] theorem State.setErr_j (v : BitVec 3) : (s.setErr v).j = s.j := rfl
@[simp] theorem State.setErr_k (v : BitVec 3) : (s.setErr v).k = s.k := rfl
@[simp] theorem State.setErr_z (v : BitVec 3) : (s.setErr v).z = s.z := rfl
@[simp] theorem State.setErr_klen (v : BitVec 3) : (s.setErr v).klen = s.klen := rfl
@[simp] theorem State.setErr_ph (v : BitVec 3) : (s.setErr v).ph = s.ph := rfl
@[simp] theorem State.setErr_err (v : BitVec 3) : (s.setErr v).err = v := rfl
@[simp] theorem State.setErr_out (v : BitVec 3) : (s.setErr v).out = s.out := rfl
@[simp] theorem State.setErr_taken (v : BitVec 3) : (s.setErr v).taken = s.taken := rfl
@[simp] theorem State.setErr_past (v : BitVec 3) : (s.setErr v).past = s.past := rfl
@[simp] theorem State.setErr_host (v : BitVec 3) : (s.setErr v).host = s.host := rfl
@[simp] theorem State.setErr_free (v : BitVec 3) : (s.setErr v).free = s.free := rfl

/-! ### setOut -/

@[simp] theorem State.setOut_S (v : List Byte) : (s.setOut v).S = s.S := rfl
@[simp] theorem State.setOut_K (v : List Byte) : (s.setOut v).K = s.K := rfl
@[simp] theorem State.setOut_i (v : List Byte) : (s.setOut v).i = s.i := rfl
@[simp] theorem State.setOut_j (v : List Byte) : (s.setOut v).j = s.j := rfl
@[simp] theorem State.setOut_k (v : List Byte) : (s.setOut v).k = s.k := rfl
@[simp] theorem State.setOut_z (v : List Byte) : (s.setOut v).z = s.z := rfl
@[simp] theorem State.setOut_klen (v : List Byte) : (s.setOut v).klen = s.klen := rfl
@[simp] theorem State.setOut_ph (v : List Byte) : (s.setOut v).ph = s.ph := rfl
@[simp] theorem State.setOut_err (v : List Byte) : (s.setOut v).err = s.err := rfl
@[simp] theorem State.setOut_out (v : List Byte) : (s.setOut v).out = v := rfl
@[simp] theorem State.setOut_taken (v : List Byte) : (s.setOut v).taken = s.taken := rfl
@[simp] theorem State.setOut_past (v : List Byte) : (s.setOut v).past = s.past := rfl
@[simp] theorem State.setOut_host (v : List Byte) : (s.setOut v).host = s.host := rfl
@[simp] theorem State.setOut_free (v : List Byte) : (s.setOut v).free = s.free := rfl

/-! ### setTaken -/

@[simp] theorem State.setTaken_S (v : Nat) : (s.setTaken v).S = s.S := rfl
@[simp] theorem State.setTaken_K (v : Nat) : (s.setTaken v).K = s.K := rfl
@[simp] theorem State.setTaken_i (v : Nat) : (s.setTaken v).i = s.i := rfl
@[simp] theorem State.setTaken_j (v : Nat) : (s.setTaken v).j = s.j := rfl
@[simp] theorem State.setTaken_k (v : Nat) : (s.setTaken v).k = s.k := rfl
@[simp] theorem State.setTaken_z (v : Nat) : (s.setTaken v).z = s.z := rfl
@[simp] theorem State.setTaken_klen (v : Nat) : (s.setTaken v).klen = s.klen := rfl
@[simp] theorem State.setTaken_ph (v : Nat) : (s.setTaken v).ph = s.ph := rfl
@[simp] theorem State.setTaken_err (v : Nat) : (s.setTaken v).err = s.err := rfl
@[simp] theorem State.setTaken_out (v : Nat) : (s.setTaken v).out = s.out := rfl
@[simp] theorem State.setTaken_taken (v : Nat) : (s.setTaken v).taken = v := rfl
@[simp] theorem State.setTaken_past (v : Nat) : (s.setTaken v).past = s.past := rfl
@[simp] theorem State.setTaken_host (v : Nat) : (s.setTaken v).host = s.host := rfl
@[simp] theorem State.setTaken_free (v : Nat) : (s.setTaken v).free = s.free := rfl

/-! ### setPast -/

@[simp] theorem State.setPast_S (v : List PastOutput) : (s.setPast v).S = s.S := rfl
@[simp] theorem State.setPast_K (v : List PastOutput) : (s.setPast v).K = s.K := rfl
@[simp] theorem State.setPast_i (v : List PastOutput) : (s.setPast v).i = s.i := rfl
@[simp] theorem State.setPast_j (v : List PastOutput) : (s.setPast v).j = s.j := rfl
@[simp] theorem State.setPast_k (v : List PastOutput) : (s.setPast v).k = s.k := rfl
@[simp] theorem State.setPast_z (v : List PastOutput) : (s.setPast v).z = s.z := rfl
@[simp] theorem State.setPast_klen (v : List PastOutput) : (s.setPast v).klen = s.klen := rfl
@[simp] theorem State.setPast_ph (v : List PastOutput) : (s.setPast v).ph = s.ph := rfl
@[simp] theorem State.setPast_err (v : List PastOutput) : (s.setPast v).err = s.err := rfl
@[simp] theorem State.setPast_out (v : List PastOutput) : (s.setPast v).out = s.out := rfl
@[simp] theorem State.setPast_taken (v : List PastOutput) : (s.setPast v).taken = s.taken := rfl
@[simp] theorem State.setPast_past (v : List PastOutput) : (s.setPast v).past = v := rfl
@[simp] theorem State.setPast_host (v : List PastOutput) : (s.setPast v).host = s.host := rfl
@[simp] theorem State.setPast_free (v : List PastOutput) : (s.setPast v).free = s.free := rfl

/-! ### setHost -/

@[simp] theorem State.setHost_S (v : List HostAction) : (s.setHost v).S = s.S := rfl
@[simp] theorem State.setHost_K (v : List HostAction) : (s.setHost v).K = s.K := rfl
@[simp] theorem State.setHost_i (v : List HostAction) : (s.setHost v).i = s.i := rfl
@[simp] theorem State.setHost_j (v : List HostAction) : (s.setHost v).j = s.j := rfl
@[simp] theorem State.setHost_k (v : List HostAction) : (s.setHost v).k = s.k := rfl
@[simp] theorem State.setHost_z (v : List HostAction) : (s.setHost v).z = s.z := rfl
@[simp] theorem State.setHost_klen (v : List HostAction) : (s.setHost v).klen = s.klen := rfl
@[simp] theorem State.setHost_ph (v : List HostAction) : (s.setHost v).ph = s.ph := rfl
@[simp] theorem State.setHost_err (v : List HostAction) : (s.setHost v).err = s.err := rfl
@[simp] theorem State.setHost_out (v : List HostAction) : (s.setHost v).out = s.out := rfl
@[simp] theorem State.setHost_taken (v : List HostAction) : (s.setHost v).taken = s.taken := rfl
@[simp] theorem State.setHost_past (v : List HostAction) : (s.setHost v).past = s.past := rfl
@[simp] theorem State.setHost_host (v : List HostAction) : (s.setHost v).host = v := rfl
@[simp] theorem State.setHost_free (v : List HostAction) : (s.setHost v).free = s.free := rfl

/-! ### setFree -/

@[simp] theorem State.setFree_S (v : Nat) : (s.setFree v).S = s.S := rfl
@[simp] theorem State.setFree_K (v : Nat) : (s.setFree v).K = s.K := rfl
@[simp] theorem State.setFree_i (v : Nat) : (s.setFree v).i = s.i := rfl
@[simp] theorem State.setFree_j (v : Nat) : (s.setFree v).j = s.j := rfl
@[simp] theorem State.setFree_k (v : Nat) : (s.setFree v).k = s.k := rfl
@[simp] theorem State.setFree_z (v : Nat) : (s.setFree v).z = s.z := rfl
@[simp] theorem State.setFree_klen (v : Nat) : (s.setFree v).klen = s.klen := rfl
@[simp] theorem State.setFree_ph (v : Nat) : (s.setFree v).ph = s.ph := rfl
@[simp] theorem State.setFree_err (v : Nat) : (s.setFree v).err = s.err := rfl
@[simp] theorem State.setFree_out (v : Nat) : (s.setFree v).out = s.out := rfl
@[simp] theorem State.setFree_taken (v : Nat) : (s.setFree v).taken = s.taken := rfl
@[simp] theorem State.setFree_past (v : Nat) : (s.setFree v).past = s.past := rfl
@[simp] theorem State.setFree_host (v : Nat) : (s.setFree v).host = s.host := rfl
@[simp] theorem State.setFree_free (v : Nat) : (s.setFree v).free = v := rfl

/-! ### zeroize -/

@[simp] theorem zeroize_S : (zeroize s).S = Memory.zero := rfl
@[simp] theorem zeroize_K : (zeroize s).K = Memory.zero := rfl
@[simp] theorem zeroize_i : (zeroize s).i = 0 := rfl
@[simp] theorem zeroize_j : (zeroize s).j = 0 := rfl
@[simp] theorem zeroize_k : (zeroize s).k = 0 := rfl
@[simp] theorem zeroize_z : (zeroize s).z = 0 := rfl
@[simp] theorem zeroize_klen : (zeroize s).klen = 0 := rfl
@[simp] theorem zeroize_ph : (zeroize s).ph = s.ph := rfl
@[simp] theorem zeroize_err : (zeroize s).err = s.err := rfl
@[simp] theorem zeroize_out : (zeroize s).out = s.out := rfl
@[simp] theorem zeroize_taken : (zeroize s).taken = s.taken := rfl
@[simp] theorem zeroize_past : (zeroize s).past = s.past := rfl
@[simp] theorem zeroize_host : (zeroize s).host = s.host := rfl
@[simp] theorem zeroize_free : (zeroize s).free = s.free := rfl

/-! ### raise -/

@[simp] theorem raise_S (e : EngineFault) : (raise e s).S = Memory.zero := rfl
@[simp] theorem raise_K (e : EngineFault) : (raise e s).K = Memory.zero := rfl
@[simp] theorem raise_i (e : EngineFault) : (raise e s).i = 0 := rfl
@[simp] theorem raise_j (e : EngineFault) : (raise e s).j = 0 := rfl
@[simp] theorem raise_k (e : EngineFault) : (raise e s).k = 0 := rfl
@[simp] theorem raise_z (e : EngineFault) : (raise e s).z = 0 := rfl
@[simp] theorem raise_klen (e : EngineFault) : (raise e s).klen = 0 := rfl
@[simp] theorem raise_ph (e : EngineFault) : (raise e s).ph = .idle := rfl
@[simp] theorem raise_err (e : EngineFault) : (raise e s).err = setFlag s.err e := rfl
@[simp] theorem raise_out (e : EngineFault) : (raise e s).out = s.out := rfl
@[simp] theorem raise_taken (e : EngineFault) : (raise e s).taken = s.taken := rfl
@[simp] theorem raise_past (e : EngineFault) : (raise e s).past = s.past := rfl
@[simp] theorem raise_host (e : EngineFault) : (raise e s).host = s.host := rfl
@[simp] theorem raise_free (e : EngineFault) : (raise e s).free = s.free := rfl

/-! ### softReset -/

@[simp] theorem softReset_S : (softReset s).S = Memory.zero := rfl
@[simp] theorem softReset_K : (softReset s).K = Memory.zero := rfl
@[simp] theorem softReset_i : (softReset s).i = 0 := rfl
@[simp] theorem softReset_j : (softReset s).j = 0 := rfl
@[simp] theorem softReset_k : (softReset s).k = 0 := rfl
@[simp] theorem softReset_z : (softReset s).z = 0 := rfl
@[simp] theorem softReset_klen : (softReset s).klen = 0 := rfl
@[simp] theorem softReset_ph : (softReset s).ph = .idle := rfl
@[simp] theorem softReset_err : (softReset s).err = 0 := rfl
@[simp] theorem softReset_out : (softReset s).out = s.out := rfl
@[simp] theorem softReset_taken : (softReset s).taken = s.taken := rfl
@[simp] theorem softReset_past : (softReset s).past = s.past := rfl
@[simp] theorem softReset_host : (softReset s).host = s.host := rfl
@[simp] theorem softReset_free : (softReset s).free = s.free := rfl

/-! ### emit -/

@[simp] theorem emit_S (v : Byte) : (emit v s).S = s.S := rfl
@[simp] theorem emit_K (v : Byte) : (emit v s).K = s.K := rfl
@[simp] theorem emit_i (v : Byte) : (emit v s).i = s.i := rfl
@[simp] theorem emit_j (v : Byte) : (emit v s).j = s.j := rfl
@[simp] theorem emit_k (v : Byte) : (emit v s).k = s.k := rfl
@[simp] theorem emit_z (v : Byte) : (emit v s).z = s.z := rfl
@[simp] theorem emit_klen (v : Byte) : (emit v s).klen = s.klen := rfl
@[simp] theorem emit_ph (v : Byte) : (emit v s).ph = s.ph := rfl
@[simp] theorem emit_err (v : Byte) : (emit v s).err = s.err := rfl
@[simp] theorem emit_out (v : Byte) : (emit v s).out = s.out ++ [v] := rfl
@[simp] theorem emit_taken (v : Byte) : (emit v s).taken = s.taken := rfl
@[simp] theorem emit_past (v : Byte) : (emit v s).past = s.past := rfl
@[simp] theorem emit_host (v : Byte) : (emit v s).host = s.host := rfl
@[simp] theorem emit_free (v : Byte) : (emit v s).free = s.free := rfl

/-! ### hardwareReset -/

@[simp] theorem hardwareReset_S : (hardwareReset s).S = Memory.zero := rfl
@[simp] theorem hardwareReset_K : (hardwareReset s).K = Memory.zero := rfl
@[simp] theorem hardwareReset_i : (hardwareReset s).i = 0 := rfl
@[simp] theorem hardwareReset_j : (hardwareReset s).j = 0 := rfl
@[simp] theorem hardwareReset_k : (hardwareReset s).k = 0 := rfl
@[simp] theorem hardwareReset_z : (hardwareReset s).z = 0 := rfl
@[simp] theorem hardwareReset_klen : (hardwareReset s).klen = 0 := rfl
@[simp] theorem hardwareReset_ph : (hardwareReset s).ph = .idle := rfl
@[simp] theorem hardwareReset_err : (hardwareReset s).err = 0 := rfl
@[simp] theorem hardwareReset_out : (hardwareReset s).out = [] := rfl
@[simp] theorem hardwareReset_taken : (hardwareReset s).taken = 0 := rfl
@[simp] theorem hardwareReset_host : (hardwareReset s).host = s.host := rfl
@[simp] theorem hardwareReset_free : (hardwareReset s).free = s.free + 1 := rfl

/-- The history a hardware reset closes is the bytes emitted, with those the host received: what it has taken, and from none
to all of the bytes on the port. -/
theorem hardwareReset_past : ∃ n, (hardwareReset s).past = { bytes := s.out, received := n } :: s.past ∧
    s.taken ≤ n ∧ n ≤ s.taken + s.onPort.length :=
  ⟨_, rfl, Nat.le_add_right _ _, Nat.add_le_add_left (Nat.min_le_right _ _) _⟩

/-! ### takeFromPort -/

/-- Taking a byte changes nothing but how many bytes the host has taken. -/
theorem takeFromPort_eq : takeFromPort s = s ∨ (s.onPort ≠ [] ∧ takeFromPort s = s.setTaken (s.taken + 1)) := by
  unfold takeFromPort
  cases h : s.onPort <;> simp

end Sys2Proof.Machine
end

