-- ==== Sys2Proof/Laws/Exec.lean ====
section
/-! SUPPORT. What a command, an accepted word, an act of the host and a step can do, said once. -/

namespace Sys2Proof.Machine

theorem faulted_iff (s : State) : s.faulted = true ↔ s.err ≠ 0 := by
  simp [State.faulted]

/-! ## Commands -/

@[simp] theorem guarded_of_faulted (i : Instr) (f : State → State) {s : State} (h : s.err ≠ 0) : guarded i f s = s := by
  simp [guarded, (faulted_iff s).2 h]

theorem guarded_of_legal {i : Instr} (f : State → State) {s : State} (h : s.err = 0) (hl : legalIn i s.ph = true) :
    guarded i f s = f s := by
  simp [guarded, State.faulted, h, hl]

theorem guarded_of_illegal {i : Instr} (f : State → State) {s : State} (h : s.err = 0) (hl : legalIn i s.ph = false) :
    guarded i f s = raise .badSequence s := by
  simp [guarded, State.faulted, h, hl]

/-- Every command but RST is its body behind the two checks. -/
theorem exec_eq_guarded {i : Instr} (h : i ≠ .rst) (s : State) : exec i s = .next (guarded i (bodyOf i) s) := by
  cases i <;> first | rfl | exact absurd rfl h

theorem exec_rst (s : State) : exec .rst s = .next (softReset s) := rfl

/-- A command answers a next state from every state. -/
theorem exec_next (i : Instr) (s : State) : ∃ t, exec i s = .next t := by
  cases i <;> exact ⟨_, rfl⟩

/-- What a command can do: RST resets; a faulted engine drops every other one; a wrong phase raises BadSequence; else the body
runs (30_encoding.md R75). -/
theorem exec_cases {i : Instr} {s t : State} (h : exec i s = .next t) :
    (i = .rst ∧ t = softReset s) ∨ (i ≠ .rst ∧ s.err ≠ 0 ∧ t = s) ∨
    (i ≠ .rst ∧ s.err = 0 ∧ legalIn i s.ph = false ∧ t = raise .badSequence s) ∨
    (i ≠ .rst ∧ s.err = 0 ∧ legalIn i s.ph = true ∧ t = bodyOf i s) := by
  by_cases hr : i = .rst
  · subst hr; rw [exec_rst] at h; exact .inl ⟨rfl, by simpa using h.symm⟩
  · rw [exec_eq_guarded hr] at h
    obtain rfl : guarded i (bodyOf i) s = t := by simpa using h
    by_cases he : s.err = 0
    · cases hl : legalIn i s.ph with
      | false => exact .inr (.inr (.inl ⟨hr, he, rfl, guarded_of_illegal _ he hl⟩))
      | true => exact .inr (.inr (.inr ⟨hr, he, rfl, guarded_of_legal _ he hl⟩))
    · exact .inr (.inl ⟨hr, he, guarded_of_faulted _ _ he⟩)

/-! ## Words -/

theorem accept_of_decode {c : Word} {i : Instr} (h : decode c = .ok i) (s : State) : accept c s = exec i s := by
  simp [accept, h]

theorem accept_encode (i : Instr) (s : State) : accept (encode i) s = exec i s := by
  refine accept_of_decode ?_ s
  cases i with
  | nop => exact Laws.RoundTrip.nop
  | kpush imm8 => exact Laws.RoundTrip.kpush imm8
  | ksched => exact Laws.RoundTrip.ksched
  | crypt imm8 => exact Laws.RoundTrip.crypt imm8
  | fin => exact Laws.RoundTrip.fin
  | rst => exact Laws.RoundTrip.rst

theorem accept_of_illegal {c : Word} {e : DecodeError} (h : decode c = .error e) (s : State) :
    accept c s = .next (acceptIllegal s) := by
  simp [accept, h]

/-- What an accepted word can do: what its command does, or, where it is none, be dropped by a faulted engine or raise
IllegalCommand. -/
theorem accept_cases {c : Word} {s t : State} (h : accept c s = .next t) :
    (∃ i, decode c = .ok i ∧ exec i s = .next t) ∨
    (∃ e, decode c = .error e ∧ ((s.err ≠ 0 ∧ t = s) ∨ (s.err = 0 ∧ t = raise .illegalCommand s))) := by
  cases hd : decode c with
  | ok i => exact .inl ⟨i, rfl, by rwa [accept_of_decode hd] at h⟩
  | error e =>
    rw [accept_of_illegal hd] at h
    obtain rfl : acceptIllegal s = t := by simpa using h
    refine .inr ⟨e, rfl, ?_⟩
    by_cases he : s.err = 0
    · exact .inr ⟨he, by simp [acceptIllegal, State.faulted, he]⟩
    · exact .inl ⟨he, by simp [acceptIllegal, (faulted_iff s).2 he]⟩

theorem accept_next (c : Word) (s : State) : ∃ t, accept c s = .next t := by
  cases hd : decode c with
  | ok i => rw [accept_of_decode hd]; exact exec_next i s
  | error e => exact ⟨_, accept_of_illegal hd s⟩

/-! ## Lists of words -/

@[simp] theorem acceptAll_nil (s : State) : acceptAll [] s = .next s := rfl

theorem acceptAll_cons {c : Word} {s t : State} (h : accept c s = .next t) (ws : List Word) :
    acceptAll (c :: ws) s = acceptAll ws t := by
  simp [acceptAll, h]

theorem acceptAll_next (ws : List Word) (s : State) : ∃ t, acceptAll ws s = .next t := by
  induction ws generalizing s with
  | nil => exact ⟨s, rfl⟩
  | cons c rest ih =>
    obtain ⟨u, hu⟩ := accept_next c s
    rw [acceptAll_cons hu]
    exact ih u

theorem acceptAll_append {ws : List Word} {s t : State} (h : acceptAll ws s = .next t) (ws' : List Word) :
    acceptAll (ws ++ ws') s = acceptAll ws' t := by
  induction ws generalizing s with
  | nil => obtain rfl : s = t := by simpa using h
           rfl
  | cons c rest ih =>
    obtain ⟨u, hu⟩ := accept_next c s
    rw [acceptAll_cons hu] at h
    rw [List.cons_append, acceptAll_cons hu]
    exact ih h

/-! ## Steps -/

theorem step_of_waiting {s : State} (h : s.host = []) : step s = .next s := by
  simp [step, nextAct, h]

theorem step_of_act {s : State} {a : HostAction} {rest : List HostAction} (h : s.host = a :: rest) :
    step s = perform a (s.setHost rest) := by
  simp [step, nextAct, h]

/-- What a step can do: wait, accept a word, be reset, be reset while a word executes, give a byte to the host. -/
theorem step_cases {s t : State} (h : step s = .next t) :
    (s.host = [] ∧ t = s) ∨
    (∃ c rest, s.host = .command c :: rest ∧ accept c (s.setHost rest) = .next t) ∨
    (∃ rest, s.host = .reset :: rest ∧ t = hardwareReset (s.setHost rest)) ∨
    (∃ c rest, s.host = .resetDuring c :: rest ∧ t = resetDuringCommand c (s.setHost rest)) ∨
    (∃ rest, s.host = .takeByte :: rest ∧ t = takeFromPort (s.setHost rest)) := by
  cases hh : s.host with
  | nil => rw [step_of_waiting hh] at h; exact .inl ⟨rfl, by simpa using h.symm⟩
  | cons a rest =>
    rw [step_of_act hh] at h
    cases a with
    | command c => exact .inr (.inl ⟨c, rest, rfl, h⟩)
    | reset => exact .inr (.inr (.inl ⟨rest, rfl, by simpa [perform] using h.symm⟩))
    | resetDuring c => exact .inr (.inr (.inr (.inl ⟨c, rest, rfl, by simpa [perform] using h.symm⟩)))
    | takeByte => exact .inr (.inr (.inr (.inr ⟨rest, rfl, by simpa [perform] using h.symm⟩)))

/-! ## The bodies, field by field -/

theorem cryptAdvance_cipher (s : State) : (cryptAdvance s).cipher = ksgStep s.cipher := rfl

@[simp] theorem cryptBody_cipher (b : Byte) (s : State) : (cryptBody b s).cipher = ksgStep s.cipher := rfl
@[simp] theorem cryptBody_K (b : Byte) (s : State) : (cryptBody b s).K = s.K := rfl
@[simp] theorem cryptBody_klen (b : Byte) (s : State) : (cryptBody b s).klen = s.klen := rfl
@[simp] theorem cryptBody_ph (b : Byte) (s : State) : (cryptBody b s).ph = s.ph := rfl
@[simp] theorem cryptBody_err (b : Byte) (s : State) : (cryptBody b s).err = s.err := rfl
@[simp] theorem cryptBody_out (b : Byte) (s : State) : (cryptBody b s).out = s.out ++ [b ^^^ (ksgStep s.cipher).z] := rfl
@[simp] theorem cryptBody_taken (b : Byte) (s : State) : (cryptBody b s).taken = s.taken := rfl
@[simp] theorem cryptBody_past (b : Byte) (s : State) : (cryptBody b s).past = s.past := rfl
@[simp] theorem cryptBody_host (b : Byte) (s : State) : (cryptBody b s).host = s.host := rfl
@[simp] theorem cryptBody_free (b : Byte) (s : State) : (cryptBody b s).free = s.free := rfl

/-! ### kschedFinish -/

@[simp] theorem kschedFinish_S (s : State) : (kschedFinish s).S = s.S := rfl
@[simp] theorem kschedFinish_K (s : State) : (kschedFinish s).K = Memory.zero := rfl
@[simp] theorem kschedFinish_i (s : State) : (kschedFinish s).i = 0 := rfl
@[simp] theorem kschedFinish_j (s : State) : (kschedFinish s).j = 0 := rfl
@[simp] theorem kschedFinish_k (s : State) : (kschedFinish s).k = 0 := rfl
@[simp] theorem kschedFinish_z (s : State) : (kschedFinish s).z = 0 := rfl
@[simp] theorem kschedFinish_klen (s : State) : (kschedFinish s).klen = 0 := rfl
@[simp] theorem kschedFinish_ph (s : State) : (kschedFinish s).ph = .ready := rfl
@[simp] theorem kschedFinish_err (s : State) : (kschedFinish s).err = s.err := rfl
@[simp] theorem kschedFinish_out (s : State) : (kschedFinish s).out = s.out := rfl
@[simp] theorem kschedFinish_taken (s : State) : (kschedFinish s).taken = s.taken := rfl
@[simp] theorem kschedFinish_past (s : State) : (kschedFinish s).past = s.past := rfl
@[simp] theorem kschedFinish_host (s : State) : (kschedFinish s).host = s.host := rfl
@[simp] theorem kschedFinish_free (s : State) : (kschedFinish s).free = s.free := rfl

theorem kschedBody_of_empty {s : State} (h : s.klen = 0) : kschedBody s = raise .invalidKey s := if_pos h

theorem kschedBody_of_key {s : State} (h : s.klen ≠ 0) : kschedBody s = kschedFinish (kschedLoop s) := if_neg h

theorem kpushBody_of_room (b : Byte) {s : State} (h : s.klen.toNat < 256) :
    kpushBody b s = (s.setKeys (s.K.write (indexKlen s) b)).setKlen (s.klen + 1) := if_pos h

theorem kpushBody_of_full (b : Byte) {s : State} (h : ¬ s.klen.toNat < 256) : kpushBody b s = s := if_neg h

/-- What the loop of KSCHED leaves outside `S`, `i` and `j`. -/
theorem kschedLoop_frame (s : State) : (kschedLoop s).K = s.K ∧ (kschedLoop s).klen = s.klen ∧ (kschedLoop s).k = s.k ∧
    (kschedLoop s).z = s.z ∧ (kschedLoop s).ph = s.ph ∧ (kschedLoop s).err = s.err ∧ (kschedLoop s).out = s.out ∧
    (kschedLoop s).taken = s.taken ∧ (kschedLoop s).past = s.past ∧ (kschedLoop s).host = s.host ∧
    (kschedLoop s).free = s.free := by
  have hfold : ∀ (l : List Byte) (u : State), (l.foldl kschedIteration u).K = u.K ∧ (l.foldl kschedIteration u).klen = u.klen ∧
      (l.foldl kschedIteration u).k = u.k ∧ (l.foldl kschedIteration u).z = u.z ∧ (l.foldl kschedIteration u).ph = u.ph ∧
      (l.foldl kschedIteration u).err = u.err ∧ (l.foldl kschedIteration u).out = u.out ∧
      (l.foldl kschedIteration u).taken = u.taken ∧ (l.foldl kschedIteration u).past = u.past ∧
      (l.foldl kschedIteration u).host = u.host ∧ (l.foldl kschedIteration u).free = u.free := by
    intro l
    induction l with
    | nil => intro u; simp
    | cons c rest ih => intro u; rw [List.foldl_cons]; exact ih (kschedIteration u c)
  have h := hfold allBytes ((s.setS s.S.fillIdentity).setJ Config.accumulatorStart)
  unfold kschedLoop
  generalize allBytes = l at h ⊢
  generalize s.S.fillIdentity = m at h ⊢
  exact h

end Sys2Proof.Machine
end

