-- ==== Sys2Proof/Laws/KeySchedule.lean ====
section
/-! SUPPORT. The expansion of a key and the key that the buffer holds. -/

namespace Sys2Proof.Machine

/-- The expansion of a key is the key repeated (40_key_schedule.md R98); the free value of the empty list does not enter. -/
theorem keyExpansion_of_key {key : List Byte} (h : key ≠ []) (i : Byte) :
    keyExpansion key i = key.getD (i.toNat % key.length) 0 := by
  have hlt : i.toNat % key.length < key.length := Nat.mod_lt _ (List.length_pos_iff.2 h)
  simp [keyExpansion, List.getD, hlt]

/-- The schedule sees a key only through its expansion (40_key_schedule.md R98). -/
theorem ksa_of_expansion {key key' : List Byte} (h : ∀ i, keyExpansion key i = keyExpansion key' i) : ksa key = ksa key' :=
  congrArg ksaOfExpansion (funext h)

@[simp] theorem bufferedKey_length (s : State) : (bufferedKey s).length = s.klen.toNat := by
  simp [bufferedKey]

/-- The buffer holds a key exactly when something was pushed. -/
theorem bufferedKey_ne_nil {s : State} (h : s.klen ≠ 0) : bufferedKey s ≠ [] := fun hn =>
  h (BitVec.eq_of_toNat_eq (by rw [← bufferedKey_length, hn]; rfl))

end Sys2Proof.Machine
end

