-- ==== Sys2Proof/Laws/Listing.lean ====
section
/-! SUPPORT. What the reader of a listing can do with a character and with a run of characters. -/

namespace Sys2Proof.Machine

/-- Reading a run of characters and then another is reading both. -/
theorem lexChars_append {a : List Char} {l l' : Lexer} (h : lexChars a l = some l') (b : List Char) :
    lexChars (a ++ b) l = lexChars b l' := by
  induction a generalizing l with
  | nil => obtain rfl : l = l' := by simpa [lexChars] using h
           rfl
  | cons c cs ih =>
    cases hs : lexStep l c with
    | none => simp [lexChars, hs] at h
    | some m =>
      simp only [lexChars, List.cons_append, hs] at h ⊢
      exact ih h

/-- A character outside ASCII is none of the characters of a listing (30_encoding.md R79). -/
theorem lexBetween_nonAscii (ts : List Token) {c : Char} (h : 128 ≤ c.toNat) : lexBetween ts c = none := by
  have hne : ∀ d : Char, d.toNat < 128 → c ≠ d := by rintro d hd rfl; omega
  have hblank : isBlank c = false := by simp [isBlank, isLineEnd]; omega
  have hword : isWordChar c = false := by simp [isWordChar]; omega
  simp [lexBetween, hblank, hword, hne ',' (by decide), hne semicolon (by decide), hne doubleQuote (by decide),
    hne singleQuote (by decide)]

/-- The reader reads no character outside ASCII, wherever it stands (30_encoding.md R79). -/
theorem lexStep_nonAscii (l : Lexer) {c : Char} (h : 128 ≤ c.toNat) : lexStep l c = none := by
  have hne : ∀ d : Char, d.toNat < 128 → c ≠ d := by rintro d hd rfl; omega
  have hascii : asciiByte c = none := if_neg (by omega)
  have hprint : printableByte c = none := if_neg (by omega)
  have hword : isWordChar c = false := by simp [isWordChar]; omega
  have hend : isLineEnd c = false := by simp [isLineEnd]; omega
  obtain ⟨m, ts⟩ := l
  cases m with
  | between => exact lexBetween_nonAscii ts h
  | inWord acc => cases hw : wordToken acc.reverse <;> simp [lexStep, hword, hw, lexBetween_nonAscii _ h]
  | inText acc => simp [lexStep, hne doubleQuote (by decide), hascii]
  | quoteOpen => simp [lexStep, hprint]
  | quoteRead b => simp [lexStep, hne singleQuote (by decide)]
  | comment => simp [lexStep, hend, hascii]

end Sys2Proof.Machine
end

