-- ==== Sys2Proof/Tests/Slice0.lean ====
section
/-! SUPPORT. The model's own tests, with expected results from the tables of 95_test_vectors.md or written out from the rules;
and, for each obligation with hypotheses, a witness that meets them. -/

namespace Sys2Proof.Tests

open Sys2Proof.Machine

/-- An outcome is a next state, and a property holds of it. -/
def nextThat (o : Host.Outcome State Fault Refusal) (p : State → Bool) : Bool :=
  match o with
  | .next s => p s
  | .fault _ => false
  | .refused _ => false

/-! ## Well-formedness: each check refuses an ill-formed term -/

/-- 0x06 is the first unused opcode (V15). -/
theorem test_wellFormed_opcode : opcodeInUse 0x06 = false ∧ opcodeInUse 0x05 = true := by decide
/-- NOP takes no operand byte but 0x00; KPUSH takes any (V15). -/
theorem test_wellFormed_operand : operandInPlace 0x00 0x01 = false ∧ operandInPlace 0x01 0xFF = true := by decide
theorem test_wellFormed_fields : wellFormedFields 0x02 0x80 = false ∧ wellFormedFields 0xFF 0xFF = false := by decide
/-- The empty key is no key (R96). -/
theorem test_wellFormed_key : wellFormedKey [] = false ∧ wellFormedKey [0x00] = true := by decide

/-! ## Decoding: words written out bit by bit from R72, and the table V15 -/

theorem test_decode_nop : decode 0b0000000000000000 = .ok .nop := by decide
theorem test_decode_kpush : decode 0b0000000101000001 = .ok (.kpush 0x41) := by decide
theorem test_decode_ksched : decode 0b0000001000000000 = .ok .ksched := by decide
theorem test_decode_crypt : decode 0b0000001110000001 = .ok (.crypt 0x81) := by decide
theorem test_decode_fin : decode 0b0000010000000000 = .ok .fin := by decide
theorem test_decode_rst : decode 0b0000010100000000 = .ok .rst := by decide
theorem test_decode_illegal : [0x0001, 0x0280, 0x0401, 0x0501].map decode = List.replicate 4 (.error .operandNotZero) ∧
    [0x0600, 0xFFFF].map decode = List.replicate 2 (.error .unusedOpcode) := by decide
/-- The words of V14 and V15. -/
theorem test_encode : [.nop, .kpush 0x41, .kpush 0xFF, .ksched, .crypt 0x41, .fin, .rst].map encode =
    [0x0000, 0x0141, 0x01FF, 0x0200, 0x0341, 0x0400, 0x0500] := by decide
/-- The opcode byte first (R56). -/
theorem test_serialise : encodeStream [.kpush 0x41, .ksched] = [0x01, 0x41, 0x02, 0x00] ∧
    decodeStream [0x03, 0x41, 0x04] = .error .truncated := by decide
theorem test_decodeTableWord : decodeTableWord 16 0x0385 = some (.crypt 0x85) ∧ decodeTableWord 16 0x0600 = none := by decide

/-! ## Listings (R78, R79) -/

/-- `KPUSH 'A'` is `0141` and `CRYPT 0x41` is `0341` (R78). -/
theorem test_listing_words :
    readLine (nameKpush ++ [' ', singleQuote, 'A', singleQuote]) = some (some (.command (.kpush 0x41))) ∧
    readLine (nameCrypt ++ [' ', '0', 'x', '4', '1']) = some (some (.command (.crypt 0x41))) ∧
    printWord (encode (.kpush 0x41)) = ['0', '1', '4', '1'] ∧ printWord (encode (.crypt 0x41)) = ['0', '3', '4', '1'] := by
  decide
/-- `KEY 65, 0x42` pushes two bytes; `TRANSFORM "A", "B"` is one call (R79). -/
theorem test_listing_pseudo :
    readLine (nameTransform ++ [' ', doubleQuote, 'A', doubleQuote, ',', ' ', doubleQuote, 'B', doubleQuote]) =
      some (some (.transform [0x41] [0x42])) ∧
    readLine (nameKey ++ [' ', '6', '5', ',', ' ', '0', 'x', '4', '2']) = some (some (.key [0x41, 0x42])) ∧
    (ListingLine.transform [0x41] [0x42]).expand = [.kpush 0x41, .ksched, .crypt 0x42, .fin] := by decide

/-- A character outside ASCII is not allowed in a listing, also not in a comment (R79); a comment ends with its line (R78). -/
theorem test_listing_comment : readLine (nameNop ++ [' ', semicolon, Char.ofNat 233]) = none ∧
    readLine (nameNop ++ [' ', semicolon, 'x', Char.ofNat 10]) = some (some (.command .nop)) := by decide

/-! ## The machine: steps of the tables V2, V6, V12, V14, V16 -/

theorem test_withFetchWord : step (State.reset.withFetchWord 16 0x0141) =
    .next { State.reset with K := [(0, 0x41)], klen := 1 } := by rfl

/-- V14, rows 1 and 2. -/
theorem test_kpush : nextThat (acceptAll [0x0141, 0x0100] State.reset) fun s =>
    s.K.read 0 == 0x41 && s.K.read 1 == 0x00 && s.klen == 2 && s.status == 0x00 := by decide
/-- V14, rows 3 and 4. -/
theorem test_kpush_full : nextThat (acceptAll [0x01FF, 0x017E] { State.reset with klen := 255 }) fun s =>
    s.K == [(255, 0xFF)] && s.klen == 256 && s.status == 0x00 := by decide

/-- The state of V2 before its iteration c = 2, on the entries that the iterations 2 and 3 touch. -/
def v2State : State :=
  { State.reset with S := [(2, 2), (3, 3), (44, 44), (122, 122)], K := [(0, 0x4B), (1, 0x65), (2, 0x79)], klen := 3, j := 177 }

/-- V2, c = 2: 177 + 2 + 121 = 300 mod 256 = 44, swap(2, 44). -/
theorem test_ksched_iteration : (kschedIteration v2State 2).j = 44 ∧
    (kschedIteration v2State 2).S = [(2, 44), (3, 3), (44, 2), (122, 122)] := by decide
/-- V2, c = 3: the key byte is K[3 mod 3] = K[0], 44 + 3 + 75 = 122, swap(3, 122). -/
theorem test_ksched_keyIndex : (kschedIteration (kschedIteration v2State 2) 3).j = 122 ∧
    (kschedIteration (kschedIteration v2State 2) 3).S = [(2, 44), (3, 122), (44, 2), (122, 3)] := by decide

/-- The state of V6 before its first CRYPT, on the entries of S that the command reads. -/
def v6State : State :=
  { State.reset with S := [(1, 131), (19, 203), (131, 245), (188, 196), (204, 199), (245, 18)], ph := .ready }

/-- V6: i = 1, j = 245, k = 19, z = 196, 0x85 appended, S[1] and S[245] exchanged. -/
theorem test_crypt : nextThat (accept 0x0341 v6State) fun s =>
    s.i == 1 && s.j == 245 && s.k == 19 && s.z == 196 && s.out == [0x85] && s.S.read 1 == 18 && s.S.read 245 == 131 &&
    s.status == 0x01 := by decide
/-- V12: both indices are 129, and S stays. -/
theorem test_crypt_aliasing : nextThat (accept 0x0300
      { v6State with S := [(129, 235), (158, 92)], i := 128, j := 179, k := 37, z := 15 }) fun s =>
    s.i == 129 && s.j == 129 && s.k == 145 && s.S == [(129, 235), (158, 92)] := by decide

/-- After the last CRYPT of P1, FIN gives STATUS 0x00, all zero, OUT as it was. -/
theorem test_fin : accept 0x0400 { v6State with i := 8, j := 215, k := 7, z := 221, out := [0x9C] } =
    .next { State.reset with out := [0x9C] } := by rfl
/-- V16: a NOP in the middle of a message changes nothing. -/
theorem test_nop : accept 0x0000 v6State = .next v6State := by rfl
/-- V16: RST clears a fault and keeps OUT. -/
theorem test_rst : accept 0x0500 { State.reset with err := 0b001, out := [0x85] } = .next { State.reset with out := [0x85] } := by rfl
/-- V16, the first four rows and the rows of illegal words. -/
theorem test_faults :
    (nextThat (accept 0x0200 State.reset) fun s => s.status == 0x02 && s.faultLine == 1) ∧
    (nextThat (accept 0x0341 State.reset) fun s => s.status == 0x04) ∧
    (nextThat (accept 0x0400 State.reset) fun s => s.status == 0x04) ∧
    (nextThat (accept 0x0200 v6State) fun s => s.status == 0x04 && s.S == []) ∧
    (nextThat (accept 0x0141 v6State) fun s => s.status == 0x04) ∧
    (nextThat (accept 0x0600 v6State) fun s => s.status == 0x08 && s.S == []) ∧
    (nextThat (accept 0x0001 State.reset) fun s => s.status == 0x08) := by decide
/-- V16: with STATUS 0x02 the words 0341 and FFFF are dropped. -/
theorem test_dropped : (nextThat (acceptAll [0x0341, 0xFFFF, 0x0501] { State.reset with err := 0b001 }) fun s =>
    s.status == 0x02 && s.out == []) := by decide
/-- R190: the reset value, and the bytes emitted before belong to the earlier history. -/
theorem test_hardwareReset : (hardwareReset { v6State with out := [0x85] }).S = [] ∧
    (hardwareReset { v6State with out := [0x85] }).out = [] ∧
    (hardwareReset { v6State with out := [0x85] }).past.map PastOutput.bytes = [[0x85]] := by decide
/-- R59: taking a byte does not change OUT. -/
theorem test_takeByte : nextThat (step { v6State with out := [0x85, 0xC2], host := [.takeByte] }) fun s =>
    s.out == [0x85, 0xC2] && s.onPort == [0xC2] && s.host == [] := by decide

/-! ## Witnesses: states and operands that meet the hypotheses of the obligations -/

/-- The identity in `S`, READY. -/
def ready : State := { State.reset with S := Memory.zero.fillIdentity, ph := .ready }
/-- One key byte pushed. -/
def keyed : State := { State.reset with K := [(0, 0x41)], klen := 1 }
/-- A full key buffer; and one with one byte of room. -/
def full : State := { State.reset with klen := 256 }
def oneLeft : State := { State.reset with klen := 255 }
/-- Faulted by InvalidKey. -/
def faulted : State := { State.reset with err := 0b001 }

theorem ready_wf : ready.S.wf := Memory.wf_fillIdentity Memory.wf_zero

theorem identity_isPermutation : Memory.zero.fillIdentity.isPermutation := by
  have h : Memory.zero.fillIdentity.entries = allBytes :=
    (List.map_congr_left fun b _ => Memory.read_fillIdentity Memory.wf_zero b).trans (List.map_id _)
  rw [Memory.isPermutation, h]

theorem ready_inv : ready.Inv where
  sWf := ready_wf
  kWf := Memory.wf_nil
  ready := fun _ => ⟨rfl, rfl, fun _ => rfl, identity_isPermutation⟩
  faulted := fun h => absurd rfl h
  idle := fun h => absurd h (by decide)
  keyLength := ⟨by decide, fun _ _ => rfl⟩
  oneFlag := .inl rfl
  port := Nat.le_refl 0

theorem faulted_inv : faulted.Inv where
  sWf := Memory.wf_nil
  kWf := Memory.wf_nil
  ready := fun h => absurd h (by decide)
  faulted := fun _ => ⟨rfl, rfl, fun _ => rfl, fun _ => rfl, rfl, rfl, rfl, rfl⟩
  idle := fun _ => ⟨fun _ => rfl, rfl, rfl, rfl, rfl⟩
  keyLength := ⟨by decide, fun _ _ => rfl⟩
  oneFlag := .inr (.inl rfl)
  port := Nat.le_refl 0

theorem reset_inv : State.reset.Inv where
  sWf := Memory.wf_nil
  kWf := Memory.wf_nil
  ready := fun h => absurd h (by decide)
  faulted := fun h => absurd rfl h
  idle := fun _ => ⟨fun _ => rfl, rfl, rfl, rfl, rfl⟩
  keyLength := ⟨by decide, fun _ _ => rfl⟩
  oneFlag := .inl rfl
  port := Nat.le_refl 0

/-- KSCHED with a key goes to READY. -/
theorem keyed_ksched : ∃ t, exec .ksched keyed = .next t ∧ t.ph = .ready :=
  ⟨kschedFinish (kschedLoop keyed), by
    rw [exec_eq_guarded (by simp), guarded_of_legal _ rfl rfl]; exact congrArg _ (kschedBody_of_key (by decide)), rfl⟩

/-- CRYPT runs in READY, and moves the cursor i. -/
theorem ready_crypt (b : Byte) : exec (.crypt b) ready = .next (cryptBody b ready) ∧ (cryptBody b ready).i = 1 := ⟨rfl, rfl⟩

theorem witness_IllegalWordsAreTheUnusedOpcodesAndStrayOperands :
    decode 0x0600 = .error .unusedOpcode ∧ decode 0x0501 = .error .operandNotZero ∧ State.reset.err = 0 := by decide

theorem witness_SerialisedStreamsDecodeToTheirCommands : decodeStream [0x01, 0xFF, 0x05, 0x00] = .ok [.kpush 0xFF, .rst] := by decide

/-- One byte; both ends of ASCII; the first character outside it, in a comment. -/
theorem witness_PseudoCommandsExpandToTheirBytes : [(0x00 : Byte)] ≠ [] ∧
    (∀ c ∈ [Char.ofNat 0, Char.ofNat 127, 'A'], c.toNat < 128 ∧ c ≠ doubleQuote) ∧
    ∃ c ∈ [semicolon, Char.ofNat 128], 128 ≤ c.toNat := by
  refine ⟨by decide, ?_, Char.ofNat 128, by simp, by decide⟩
  simp only [List.mem_cons, List.not_mem_nil, or_false, forall_eq_or_imp, forall_eq]
  decide

/-- A remark with a semicolon, a quotation mark and the last ASCII character; both ends of the printable characters. -/
theorem witness_PrintedCommandsReadBack :
    (∀ c ∈ [semicolon, doubleQuote, Char.ofNat 127], c.toNat < 128 ∧ c.toNat ≠ 10 ∧ c.toNat ≠ 13) ∧
    (32 ≤ ' '.toNat ∧ ' '.toNat < 127) ∧ (32 ≤ '~'.toNat ∧ '~'.toNat < 127) := by
  simp only [List.mem_cons, List.not_mem_nil, or_false, forall_eq_or_imp, forall_eq]
  decide

theorem witness_StepKeepsTheInvariants : ready.Inv ∧ faulted.Inv ∧ State.reset.Inv ∧
    ∃ t, step ready = .next t := ⟨ready_inv, faulted_inv, reset_inv, ready, rfl⟩

theorem witness_ReadyHoldsAPermutationAlongEveryRun :
    (∃ (n : Nat) (s t : State), s.Inv ∧ Host.Core.run core n s = .next t ∧ t.ph = .ready) ∧
    (∃ s t : State, s.S.wf ∧ s.ph = .idle ∧ s.err = 0 ∧ exec .ksched s = .next t ∧ t.ph = .ready) ∧
    (∃ (b : Byte) (s t : State), s.S.wf ∧ s.S.isPermutation ∧ s.ph = .ready ∧ exec (.crypt b) s = .next t) := by
  obtain ⟨t, h1, h2⟩ := keyed_ksched
  exact ⟨⟨0, ready, ready, ready_inv, rfl, rfl⟩, ⟨keyed, t, Memory.wf_nil, rfl, rfl, h1, h2⟩,
    ⟨0x41, ready, _, ready_wf, identity_isPermutation, rfl, (ready_crypt 0x41).1⟩⟩

theorem witness_StatusShowsPhaseAndFlagsOnly : State.reset.ph = keyed.ph ∧ State.reset.err = keyed.err ∧ State.reset ≠ keyed := by
  decide

/-- IDLE to READY by KSCHED; READY to IDLE by FIN, RST, hardware reset in both forms, and a fault. -/
theorem witness_PhaseChangesOnlyByItsCommands :
    (∃ s t : State, step s = .next t ∧ s.ph = .idle ∧ t.ph = .ready) ∧
    ∀ a ∈ [HostAction.command 0x0400, .command 0x0500, .reset, .resetDuring 0x0341, .command 0x0600],
      ∃ s t : State, s.host = [a] ∧ step s = .next t ∧ s.ph = .ready ∧ t.ph = .idle := by
  obtain ⟨t, h1, h2⟩ := keyed_ksched
  refine ⟨⟨keyed.setHost [.command (encode .ksched)], t, ?_, rfl, h2⟩, ?_⟩
  · rw [step_of_act rfl]; exact (accept_encode _ _).trans h1
  · simp only [List.mem_cons, List.not_mem_nil, or_false, forall_eq_or_imp, forall_eq]
    exact ⟨⟨v6State.setHost [.command 0x0400], _, rfl, rfl, rfl, rfl⟩, ⟨v6State.setHost [.command 0x0500], _, rfl, rfl, rfl, rfl⟩,
      ⟨v6State.setHost [.reset], _, rfl, rfl, rfl, rfl⟩, ⟨v6State.setHost [.resetDuring 0x0341], _, rfl, rfl, rfl, rfl⟩,
      ⟨v6State.setHost [.command 0x0600], _, rfl, rfl, rfl, rfl⟩⟩

/-- A byte appended by CRYPT; OUT emptied by a hardware reset. -/
theorem witness_OutGrowsOnlyByOneByteOfCrypt :
    (∃ t, step (v6State.setHost [.command 0x0341]) = .next t ∧ t.out = [0x85]) ∧
    ∃ t, step ((v6State.setOut [0x85]).setHost [.reset]) = .next t ∧ t.out = [] :=
  ⟨⟨_, rfl, by decide⟩, ⟨_, rfl, rfl⟩⟩

theorem witness_FlagsAreSetByFaultEntryAndClearedByReset :
    (∃ t, step (State.reset.setHost [.command 0x0400]) = .next t ∧ State.reset.flag .badSequence = false ∧
      t.flag .badSequence = true) ∧
    (∃ t, step (faulted.setHost [.command 0x0500]) = .next t ∧ faulted.flag .invalidKey = true ∧ t.flag .invalidKey = false) ∧
    faulted.Inv ∧ Host.Core.run core 1 faulted = .next faulted :=
  ⟨⟨_, rfl, by decide⟩, ⟨_, rfl, by decide⟩, faulted_inv, rfl⟩

/-- Two engines that look alike and hold different `S`, cursors and keys. -/
theorem witness_TheHostSeesNothingOfTheSecretState :
    (v6State.visible = { v6State with S := [(1, 7)], k := 3 }.visible ∧ (v6State.klen = 0 ↔ { v6State with S := [(1, 7)], k := 3 }.klen = 0)) ∧
    (keyed.visible = full.visible ∧ (keyed.klen = 0 ↔ full.klen = 0)) ∧
    ∀ (c : Word) (s : State), ∃ s', accept c s = .next s' :=
  ⟨by decide, by decide, accept_next⟩

theorem witness_StepRunsTheDecodedCommand :
    (keyed.setHost [.command 0x0141, .takeByte]).host = .command 0x0141 :: [.takeByte] ∧ decode 0x0141 = .ok (.kpush 0x41) := by decide

/-- Each column of the table: IDLE with and without a key, READY, faulted; each kind of illegal word. -/
theorem witness_CommandsAreLegalByPhase :
    (keyed.err = 0 ∧ keyed.ph = .idle ∧ keyed.klen ≠ 0) ∧ (State.reset.err = 0 ∧ State.reset.ph = .idle ∧ State.reset.klen = 0) ∧
    (v6State.err = 0 ∧ v6State.ph = .ready) ∧ (faulted.err ≠ 0 ∧ Instr.nop ≠ .rst) ∧
    decode 0x0001 = .error .operandNotZero ∧ decode 0xFFFF = .error .unusedOpcode := by decide

/-- Each cause of each fault, from an engine that is not faulted; and a faulted engine that stays or is reset. -/
theorem witness_TheThreeFaultsHaveTheirCausesCodesAndStatus :
    ([((0x0200 : Word), State.reset, (0b001 : BitVec 3)), (0x0141, v6State, 0b010), (0x0200, v6State, 0b010),
        (0x0341, State.reset, 0b010), (0x0400, State.reset, 0b010), (0x0600, State.reset, 0b100), (0x0001, v6State, 0b100),
        (0x0500, State.reset, 0b000)].all fun p =>
      p.2.1.err == 0 && nextThat (accept p.1 p.2.1) fun t => t.err == p.2.2) ∧
    faulted.err ≠ 0 ∧ (nextThat (accept 0x0200 faulted) fun t => t.err == 0b001) ∧
    nextThat (accept 0x0500 faulted) fun t => t.err == 0b000 := by decide

theorem witness_EmptyKeyRaisesInvalidKey : State.reset.err = 0 ∧ State.reset.ph = .idle ∧ State.reset.klen = 0 := by decide

theorem witness_AFaultedEngineDropsEveryWordButRst :
    (faulted.err ≠ 0 ∧ ∀ c ∈ [(0x0341 : Word), 0xFFFF, 0x0501], c ≠ 0x0500) ∧
    State.reset.err = 0 ∧ nextThat (acceptAll [0x0400, 0x0600] State.reset) fun t => t.err == 0b010 := by
  simp only [List.mem_cons, List.not_mem_nil, or_false, forall_eq_or_imp, forall_eq]
  decide

/-- RST, and hardware reset in both forms. -/
theorem witness_OnlyRstAndHardwareResetEndAFault :
    ∀ a ∈ [HostAction.command 0x0500, .reset, .resetDuring 0x0341],
      ∃ s t : State, s.host = [a] ∧ s.err ≠ 0 ∧ step s = .next t ∧ t.err = 0 := by
  simp only [List.mem_cons, List.not_mem_nil, or_false, forall_eq_or_imp, forall_eq]
  exact ⟨⟨faulted.setHost [.command 0x0500], _, rfl, by decide, rfl, rfl⟩, ⟨faulted.setHost [.reset], _, rfl, by decide, rfl, rfl⟩,
    ⟨faulted.setHost [.resetDuring 0x0341], _, rfl, by decide, rfl, rfl⟩⟩

theorem witness_FaultPriorityIsWordThenPhaseThenKey :
    (decode 0x0280 = .error .operandNotZero ∧ v6State.err = 0) ∧ (v6State.err = 0 ∧ v6State.ph = .ready) ∧
    (State.reset.err = 0 ∧ State.reset.ph = .idle ∧ State.reset.klen = 0) := by decide

/-- An unused opcode at both ends of the range, and a stray operand. -/
theorem witness_WrongPhaseAndIllegalWordsFault :
    (v6State.err = 0 ∧ v6State.ph = .ready) ∧ (State.reset.err = 0 ∧ State.reset.ph = .idle) ∧
    ∀ c ∈ [(0x0600 : Word), 0xFFFF, 0x0001], ∀ r ∈ opcodeMap, c &&& r.mask ≠ r.pattern := by
  simp only [List.mem_cons, List.not_mem_nil, or_false, forall_eq_or_imp, forall_eq, opcodeMap]
  decide

theorem witness_NopChangesNothing : (0x01 : Byte) ≠ 0 ∧ (0xFF : Byte) ≠ 0 ∧ State.reset.err = 0 := by decide

/-- `KLEN` 0, 255 and 256; READY; faulted. -/
theorem witness_KpushAppendsOneKeyByte :
    (State.reset.err = 0 ∧ State.reset.ph = .idle ∧ State.reset.K.wf ∧ State.reset.klen.toNat < 256) ∧
    (oneLeft.err = 0 ∧ oneLeft.ph = .idle ∧ oneLeft.K.wf ∧ oneLeft.klen.toNat < 256) ∧
    (full.err = 0 ∧ full.ph = .idle ∧ ¬ full.klen.toNat < 256) ∧ (v6State.err = 0 ∧ v6State.ph = .ready) ∧ faulted.err ≠ 0 := by decide

theorem witness_PushedKeyBytesLandInOrderUpToTheFirst256 :
    (full.err = 0 ∧ full.ph = .idle ∧ full.klen = 256) ∧
    (State.reset.err = 0 ∧ State.reset.ph = .idle ∧ State.reset.klen = 0 ∧ State.reset.K.wf) ∧
    256 ≤ (List.replicate 256 (0x41 : Byte)).length := ⟨by decide, by decide, List.length_replicate.ge⟩

/-- Different indices, and equal ones. -/
theorem witness_KsaIterationSwapsTwoEntries :
    v2State.S.wf ∧ (ksaIter v2State.S 177 2 0x79).2 = 44 ∧ (ksaIter Memory.zero 0 0 0x00).2 = 0 := by decide

/-- A key of one byte, listed and in the buffer; none; READY; faulted. -/
theorem witness_KschedRunsTheKeySchedule : [(0x00 : Byte)] ≠ [] ∧
    (keyed.err = 0 ∧ keyed.ph = .idle ∧ keyed.klen ≠ 0 ∧ keyed.S.wf) ∧
    (State.reset.err = 0 ∧ State.reset.ph = .idle ∧ State.reset.klen = 0) ∧ (v6State.err = 0 ∧ v6State.ph = .ready) ∧
    faulted.err ≠ 0 := by decide

/-- The longest key the buffer holds. -/
theorem witness_KschedLeavesAPermutation :
    (keyed.err = 0 ∧ keyed.ph = .idle ∧ keyed.klen ≠ 0 ∧ keyed.S.wf) ∧
    (full.err = 0 ∧ full.ph = .idle ∧ full.klen ≠ 0 ∧ full.S.wf) := by decide

/-- Two engines with the key byte 0x41 that differ in `S` and in a cursor. -/
theorem witness_TheScheduleDependsOnTheKeyAlone : ∃ s t s' t' : State, s ≠ t ∧ s.err = 0 ∧ t.err = 0 ∧ s.ph = .idle ∧ t.ph = .idle ∧
    s.S.wf ∧ t.S.wf ∧ s.klen = t.klen ∧ s.klen ≠ 0 ∧ (∀ n : Byte, n.toNat < s.klen.toNat → s.K.read n = t.K.read n) ∧
    exec .ksched s = .next s' ∧ exec .ksched t = .next t' := by
  obtain ⟨t, ht⟩ := exec_next .ksched { keyed with S := [(3, 7)], j := 5 }
  obtain ⟨s, hs, _⟩ := keyed_ksched
  exact ⟨keyed, { keyed with S := [(3, 7)], j := 5 }, s, t, by decide, rfl, rfl, rfl, rfl, Memory.wf_nil, by decide, rfl, by decide,
    fun _ _ => rfl, hs, ht⟩

theorem witness_KeysOfEqualExpansionAreEquivalent :
    (∀ i, keyExpansion [0x41] i = keyExpansion [0x41, 0x41] i) ∧ [(0x41 : Byte), 0x41] ≠ [] ∧ 2 ≠ 0 ∧
    (List.replicate 256 (0x41 : Byte)).length = 256 := ⟨by decide, by decide, by decide, List.length_replicate⟩

theorem witness_CryptDoesTheSixLines : (v6State.err = 0 ∧ v6State.ph = .ready ∧ v6State.S.wf) ∧
    (keyed.err = 0 ∧ keyed.ph = .idle) ∧ faulted.err ≠ 0 := by decide

theorem witness_CryptKeepsThePermutation : ready.err = 0 ∧ ready.ph = .ready ∧ ready.S.wf ∧ ready.S.isPermutation :=
  ⟨rfl, rfl, ready_wf, identity_isPermutation⟩

theorem witness_TheKeystreamDoesNotDependOnTheMessage : ready.err = 0 ∧ ready.ph = .ready ∧
    [(0x41 : Byte), 0x51].length = [(0x41 : Byte), 0x41].length ∧ ∀ ws : List Word, ∃ t, acceptAll ws ready = .next t :=
  ⟨rfl, rfl, rfl, fun ws => acceptAll_next ws ready⟩

theorem witness_CursorICountsTheBytesModulo256 : ready.err = 0 ∧ ready.ph = .ready ∧
    ∃ t, acceptAll ((List.replicate 256 0x00).map fun b => encode (.crypt b)) ready = .next t :=
  ⟨rfl, rfl, acceptAll_next _ _⟩

theorem witness_CursorsAreNeverResetBetweenBytes : ∃ s t : State, s.Inv ∧ step s = .next t ∧ ∃ n : Fin 4, t.x n ≠ s.x n := by
  refine ⟨ready.setHost [.command (encode (.crypt 0x41))], cryptBody 0x41 ready, ?_, ?_, 0, ?_⟩
  · exact { ready_inv with }
  · rw [step_of_act rfl]; exact (accept_encode _ _).trans (ready_crypt 0x41).1
  · show (cryptBody 0x41 ready).i ≠ 0
    rw [(ready_crypt 0x41).2]; decide

theorem witness_FinEndsTheMessage : (v6State.err = 0 ∧ v6State.ph = .ready) ∧ (keyed.err = 0 ∧ keyed.ph = .idle) ∧ faulted.err ≠ 0 := by
  decide

/-- FIN in READY; a fault in IDLE. -/
theorem witness_NothingOfACallSurvivesIt :
    (∃ s t : State, s.Inv ∧ step s = .next t ∧ s.ph = .ready ∧ t.ph = .idle) ∧
    (∃ s t : State, s.Inv ∧ step s = .next t ∧ s.err = 0 ∧ t.err ≠ 0) :=
  ⟨⟨ready.setHost [.command 0x0400], _, { ready_inv with }, rfl, rfl, rfl⟩,
    ⟨State.reset.setHost [.command 0x0400], _, { reset_inv with }, rfl, rfl, by decide⟩⟩

/-- The ends of the space. -/
theorem witness_SpacesReadBackWhatWasWritten : v6State.S.wf ∧ (0xFF : Byte) ≠ 0x00 := by decide

/-- An engine at rest: after reset, and with `OUT` not empty after a call. -/
theorem witness_ACallComputesTransform : [(0x41 : Byte)] ≠ [] ∧
    (State.reset.err = 0 ∧ State.reset.ph = .idle ∧ State.reset.klen = 0 ∧ State.reset.S.wf ∧ State.reset.K.wf) ∧
    State.reset.atRest = true ∧ (State.reset.setOut [0x85]).atRest = true := by decide

theorem witness_CallsPreserveLength : (∃ output, transform [0x41] [0x00] = .ok output) ∧
    ∃ t, acceptAll (callWords [0x00] [0x41]) State.reset = .next t := ⟨⟨_, rfl⟩, acceptAll_next _ _⟩

theorem witness_ASecondCallWithTheSameKeyRestoresTheMessage : (∃ output, transform [0x41] [0x00] = .ok output) ∧
    ∃ (t : State) (output : List Byte), acceptAll (callWords [0x00] [0x41]) State.reset = .next t ∧ t.out = State.reset.out ++ output := by
  obtain ⟨t, ht⟩ := acceptAll_next (callWords [0x00] [0x41]) State.reset
  exact ⟨⟨_, rfl⟩, t, t.out, ht, rfl⟩

theorem witness_TheEmptyMessageGivesNoOutput : [(0x00 : Byte)] ≠ [] ∧ State.reset.err = 0 ∧ State.reset.ph = .idle ∧
    State.reset.klen = 0 := by decide

theorem witness_TheEmptyKeyFailsWithoutOutput : State.reset.err = 0 ∧ State.reset.ph = .idle ∧ State.reset.klen = 0 := by decide

theorem witness_OutputsOfAPrefixAreThePrefix : (∃ output, transform ([0x41] ++ [0x42]) [0x4B] = .ok output) ∧
    (∃ output, transform [0x41, 0x51] [0x4B] = .ok output) ∧ 0 < [(0x41 : Byte), 0x42].length ∧
    [(0x41 : Byte), 0x42].getD 0 0 = [(0x41 : Byte), 0x51].getD 0 0 := ⟨⟨_, rfl⟩, ⟨_, rfl⟩, by decide, by decide⟩

/-- Two engines at rest that did different things before. -/
theorem witness_CallsLeaveNoTraceForLaterCalls :
    (State.reset.setOut [0x85]).atRest = true ∧ State.reset.atRest = true ∧ (State.reset.setOut [0x85]).S.wf ∧
    (State.reset.setOut [0x85]).K.wf ∧ [(0x41 : Byte)] ≠ [] ∧ ∀ (ws : List Word) (s : State), ∃ t, acceptAll ws s = .next t :=
  ⟨by decide, by decide, by decide, by decide, by decide, acceptAll_next⟩

theorem witness_HardwareResetBeginsANewHistory : (v6State.setHost [.reset, .takeByte]).host = .reset :: [.takeByte] ∧
    v6State.host = [] := by decide

/-- A CRYPT cut off in READY, and another word. -/
theorem witness_ResetDuringACommandAbandonsIt :
    (v6State.setHost [.resetDuring (encode (.crypt 0x41))]).host = [.resetDuring (encode (.crypt 0x41))] ∧ v6State.ph = .ready ∧
    v6State.err = 0 ∧ (keyed.setHost [.resetDuring 0x0200]).host = [.resetDuring 0x0200] := by decide

/-- A byte on the port, and none. -/
theorem witness_TakingAByteConsumesItFromThePortOnly :
    ((v6State.setOut [0x85]).setHost [.takeByte]).onPort = 0x85 :: [] ∧ (v6State.setHost [.takeByte]).onPort = [] := by decide

theorem witness_EnginesShareNoState : (∃ p', Platform.step (0 : Fin 2) (Platform.reset 2) = .next p') ∧ (0 : Fin 2) ≠ 1 :=
  ⟨⟨_, rfl⟩, by decide⟩

end Sys2Proof.Tests
end

section
/-! SUPPORT. When a space holds a permutation, and what keeps it one. 10_state.md R22. -/

namespace Sys2Proof.Machine.Memory

theorem nodup_allBytes : allBytes.Nodup := by
  unfold allBytes
  refine List.nodup_range.map_on fun a ha b hb h => ?_
  have hab : a % 256 = b % 256 := by simpa using congrArg BitVec.toNat h
  rwa [Nat.mod_eq_of_lt (List.mem_range.1 ha), Nat.mod_eq_of_lt (List.mem_range.1 hb)] at hab

/-- A space holds a permutation of 0..255 exactly when each byte stands at exactly one index. -/
theorem isPermutation_iff_bijective (m : Memory) : m.isPermutation ↔ m.read.Bijective := by
  constructor
  · intro h
    have hnodup : (allBytes.map m.read).Nodup := h.nodup_iff.2 nodup_allBytes
    refine ⟨fun a b hab => List.inj_on_of_nodup_map hnodup (mem_allBytes a) (mem_allBytes b) hab, fun v => ?_⟩
    obtain ⟨a, -, ha⟩ := List.mem_map.1 (h.mem_iff.2 (mem_allBytes v))
    exact ⟨a, ha⟩
  · rintro ⟨hinj, hsurj⟩
    refine (List.perm_ext_iff_of_nodup (nodup_allBytes.map hinj) nodup_allBytes).2 fun v => ?_
    obtain ⟨a, ha⟩ := hsurj v
    exact ⟨fun _ => mem_allBytes v, fun _ => List.mem_map.2 ⟨a, mem_allBytes a, ha⟩⟩

theorem read_swap_eq_comp {m : Memory} (hm : m.wf) (a b : Byte) :
    (m.swap a b).read = m.read ∘ Equiv.swap a b := by
  funext c
  rw [read_swap hm, Function.comp_apply, Equiv.swap_apply_def]
  split_ifs <;> simp_all

theorem isPermutation_swap {m : Memory} (hm : m.wf) (h : m.isPermutation) (a b : Byte) :
    (m.swap a b).isPermutation := by
  rw [isPermutation_iff_bijective] at h ⊢
  rw [read_swap_eq_comp hm]
  exact h.comp (Equiv.swap a b).bijective

theorem isPermutation_fillIdentity {m : Memory} (hm : m.wf) : m.fillIdentity.isPermutation := by
  rw [isPermutation_iff_bijective, show m.fillIdentity.read = id from funext (read_fillIdentity hm)]
  exact Function.bijective_id

end Sys2Proof.Machine.Memory
end

section
/-! SUPPORT. `S` through KSCHED and CRYPT, and the invariant of 10_state.md R22 through commands, words, steps and runs. -/

namespace Sys2Proof.Machine

theorem kschedIteration_S (s : State) (c : Byte) :
    (kschedIteration s c).S = s.S.swap c (kschedIteration s c).j := rfl

theorem cryptBody_S (b : Byte) (s : State) :
    (cryptBody b s).S = s.S.swap (cryptBody b s).i (cryptBody b s).j := rfl

/-- Iterations of the key schedule, in any number and order, keep a permutation in canonical form: each is a swap. -/
theorem foldl_kschedIteration_isPermutation (l : List Byte) {s : State} (hwf : s.S.wf) (hperm : s.S.isPermutation) :
    (l.foldl kschedIteration s).S.wf ∧ (l.foldl kschedIteration s).S.isPermutation := by
  induction l generalizing s with
  | nil => exact ⟨hwf, hperm⟩
  | cons c rest ih =>
    rw [List.foldl_cons]
    refine ih ?_ ?_ <;> rw [kschedIteration_S]
    · exact Memory.wf_swap hwf _ _
    · exact Memory.isPermutation_swap hwf hperm _ _

/-- The key schedule leaves a permutation: it starts from the identity (40_key_schedule.md R94). -/
theorem kschedLoop_isPermutation {s : State} (hwf : s.S.wf) :
    (kschedLoop s).S.wf ∧ (kschedLoop s).S.isPermutation := by
  unfold kschedLoop
  exact foldl_kschedIteration_isPermutation allBytes (Memory.wf_fillIdentity hwf) (Memory.isPermutation_fillIdentity hwf)

/-- The part of `State.Inv` that R22 needs, inductive by itself: `S` is in canonical form, and a permutation whenever PH is
READY. -/
structure State.PermutationWhenReady (s : State) : Prop where
  wf : s.S.wf
  perm : s.ph = .ready → s.S.isPermutation

theorem State.Inv.permutationWhenReady {s : State} (h : s.Inv) : s.PermutationWhenReady where
  wf := h.sWf
  perm hr := by obtain ⟨-, -, -, hperm⟩ := h.ready hr; exact hperm

namespace State.PermutationWhenReady

/-- Where `S` and PH are as before, nothing is lost. -/
theorem of_eq {s t : State} (h : s.PermutationWhenReady) (hS : t.S = s.S) (hph : t.ph = s.ph) :
    t.PermutationWhenReady where
  wf := hS ▸ h.wf
  perm hr := hS ▸ h.perm (hph ▸ hr)

/-- A zeroised engine in IDLE: after FIN, RST, a fault or a hardware reset. -/
theorem of_zeroized {t : State} (hS : t.S = Memory.zero) (hph : t.ph = .idle) : t.PermutationWhenReady where
  wf := hS ▸ Memory.wf_zero
  perm hr := by simp [hph] at hr

theorem after_kpushBody {s : State} (h : s.PermutationWhenReady) (b : Byte) : (kpushBody b s).PermutationWhenReady := by
  by_cases hroom : s.klen.toNat < 256
  · rw [kpushBody_of_room b hroom]; exact h.of_eq rfl rfl
  · rwa [kpushBody_of_full b hroom]

/-- KSCHED establishes the permutation, from whatever `S` held. -/
theorem after_kschedBody {s : State} (hwf : s.S.wf) : (kschedBody s).PermutationWhenReady := by
  by_cases hkey : s.klen = 0
  · rw [kschedBody_of_empty hkey]; exact of_zeroized rfl rfl
  · rw [kschedBody_of_key hkey]
    obtain ⟨hw, hp⟩ := kschedLoop_isPermutation hwf
    exact ⟨hw, fun _ => hp⟩

/-- CRYPT preserves it: it exchanges two entries and leaves PH. -/
theorem after_cryptBody {s : State} (h : s.PermutationWhenReady) (b : Byte) : (cryptBody b s).PermutationWhenReady where
  wf := by rw [cryptBody_S]; exact Memory.wf_swap h.wf _ _
  perm hr := by rw [cryptBody_S]; exact Memory.isPermutation_swap h.wf (h.perm hr) _ _

theorem after_bodyOf {s : State} (h : s.PermutationWhenReady) (i : Instr) : (bodyOf i s).PermutationWhenReady := by
  cases i with
  | nop => exact h
  | kpush b => exact h.after_kpushBody b
  | ksched => exact after_kschedBody h.wf
  | crypt b => exact h.after_cryptBody b
  | fin => exact of_zeroized rfl rfl
  | rst => exact of_zeroized rfl rfl

theorem after_exec {i : Instr} {s t : State} (h : s.PermutationWhenReady) (ht : exec i s = .next t) :
    t.PermutationWhenReady := by
  obtain ⟨-, rfl⟩ | ⟨-, -, rfl⟩ | ⟨-, -, -, rfl⟩ | ⟨-, -, -, rfl⟩ := exec_cases ht
  · exact of_zeroized rfl rfl
  · exact h
  · exact of_zeroized rfl rfl
  · exact h.after_bodyOf i

theorem after_accept {c : Word} {s t : State} (h : s.PermutationWhenReady) (ht : accept c s = .next t) :
    t.PermutationWhenReady := by
  obtain ⟨i, -, hi⟩ | ⟨e, -, ⟨-, rfl⟩ | ⟨-, rfl⟩⟩ := accept_cases ht
  · exact h.after_exec hi
  · exact h
  · exact of_zeroized rfl rfl

theorem after_step {s t : State} (h : s.PermutationWhenReady) (ht : step s = .next t) : t.PermutationWhenReady := by
  have hpop : ∀ rest, (s.setHost rest).PermutationWhenReady := fun _ => h.of_eq rfl rfl
  obtain ⟨-, rfl⟩ | ⟨c, rest, -, hc⟩ | ⟨rest, -, rfl⟩ | ⟨c, rest, -, rfl⟩ | ⟨rest, -, rfl⟩ := step_cases ht
  · exact h
  · exact (hpop rest).after_accept hc
  · exact of_zeroized rfl rfl
  · exact of_zeroized rfl rfl
  · obtain hport | ⟨-, hport⟩ := takeFromPort_eq (s.setHost rest)
    · rw [hport]; exact hpop rest
    · rw [hport]; exact (hpop rest).of_eq rfl rfl

end State.PermutationWhenReady

/-- What every step keeps holds along every run. -/
theorem run_keeps {P : State → Prop} (hstep : ∀ s t, P s → step s = .next t → P t) {n : Nat} {s t : State}
    (hs : P s) (hrun : Host.Core.run core n s = .next t) : P t := by
  induction n generalizing s with
  | zero =>
    obtain rfl : s = t := Host.Outcome.next.inj hrun
    exact hs
  | succ n ih =>
    cases hu : step s with
    | next u => exact ih (hstep s u hs hu) (by simpa [Host.Core.run, core, hu] using hrun)
    | fault r => exact nomatch r
    | refused r => simp [Host.Core.run, core, hu] at hrun

/-- In READY a CRYPT runs or is dropped, and PH stays (30_encoding.md R76). -/
theorem exec_crypt_keeps_ready {b : Byte} {s t : State} (hph : s.ph = .ready) (ht : exec (.crypt b) s = .next t) :
    t.ph = .ready := by
  obtain ⟨hr, -⟩ | ⟨-, -, rfl⟩ | ⟨-, -, hl, -⟩ | ⟨-, -, -, rfl⟩ := exec_cases ht
  · cases hr
  · exact hph
  · rw [hph] at hl; cases hl
  · exact hph

/-- Settles O10: the invariant `State.PermutationWhenReady` is kept by every step, hence along every run; KSCHED and CRYPT are
the two commands it turns on. -/
theorem readyHoldsAPermutationAlongEveryRun : Obligations.ReadyHoldsAPermutationAlongEveryRun := by
  refine ⟨fun n s t hinv hrun => ?_, fun s t hwf hidle _ ht => ?_, fun b s t hwf hperm hph ht => ?_⟩
  · exact (run_keeps (fun _ _ => State.PermutationWhenReady.after_step) hinv.permutationWhenReady hrun).perm
  · have hs : s.PermutationWhenReady := ⟨hwf, fun hr => by simp [hidle] at hr⟩
    exact (hs.after_exec ht).perm
  · have hs : s.PermutationWhenReady := ⟨hwf, fun _ => hperm⟩
    exact (hs.after_exec ht).perm (exec_crypt_keeps_ready hph ht)

end Sys2Proof.Machine
end

section
/-! SUPPORT. STATUS and the fault line, and what zeroisation and the resets leave. 10_state.md R34, R36, R37. -/

namespace Sys2Proof.Machine

/-! ## STATUS and the fault line -/

theorem status_bit_ph (s : State) : s.status.getLsbD 0 = (s.ph == .ready) := by
  have h : s.status.getLsbD 0 = s.ph.bit.getLsbD 0 := BitVec.getLsbD_append
  rw [h]
  cases s.ph <;> decide

/-- Above PH stand ERR and zeros: bits 3:1 of STATUS are ERR, and no bit of ERR is set from index 3 on. -/
theorem status_bit_err (s : State) (n : Nat) : s.status.getLsbD (n + 1) = s.err.getLsbD n := by
  have h : s.status.getLsbD (n + 1) = ((0 : BitVec 4) ++ s.err).getLsbD n := BitVec.getLsbD_append
  rw [h, BitVec.getLsbD_append]
  by_cases hn : n < 3
  · simp [hn]
  · simp [hn, BitVec.getLsbD_of_ge s.err n (by omega)]

theorem status_bits_high (s : State) : s.status.extractLsb' 4 4 = 0 := by
  refine BitVec.eq_of_getLsbD_eq fun n hn => ?_
  have h : s.status.getLsbD (4 + n) = false := by
    rw [show 4 + n = 3 + n + 1 by omega, status_bit_err]
    exact BitVec.getLsbD_of_ge s.err _ (by omega)
  simp [BitVec.getLsbD_extractLsb', h]

theorem faultLine_eq_one_iff (s : State) : s.faultLine = 1 ↔ s.err ≠ 0 := by
  rw [← faulted_iff, State.faultLine]
  cases s.faulted <;> decide

theorem status_congr {s t : State} (hph : s.ph = t.ph) (herr : s.err = t.err) : s.status = t.status := by
  simp [State.status, hph, herr]

theorem faultLine_congr {s t : State} (herr : s.err = t.err) : s.faultLine = t.faultLine := by
  simp [State.faultLine, State.faulted, herr]

/-- Settles O11, bit by bit. -/
theorem statusShowsPhaseAndFlagsOnly : Obligations.StatusShowsPhaseAndFlagsOnly :=
  ⟨fun s => ⟨status_bit_ph s, status_bit_err s 0, status_bit_err s 1, status_bit_err s 2,
    status_bits_high s, faultLine_eq_one_iff s⟩, fun _ _ hph herr => ⟨status_congr hph herr, faultLine_congr herr⟩⟩

/-! ## Zeroisation and the resets -/

theorem zeroize_holdsNothing (s : State) : (zeroize s).holdsNothing := by simp [State.holdsNothing]

theorem softReset_holdsNothing (s : State) : (softReset s).holdsNothing := zeroize_holdsNothing s

theorem hardwareReset_holdsNothing (s : State) : (hardwareReset s).holdsNothing := zeroize_holdsNothing s

theorem reset_holdsNothing : State.reset.holdsNothing := zeroize_holdsNothing State.reset

/-- Settles O16: the operations are zeroisation with PH, and ERR where they set it, changed after it. -/
theorem zeroizeClearsTheSecretStateAndNothingElse : Obligations.ZeroizeClearsTheSecretStateAndNothingElse :=
  ⟨fun s => ⟨zeroize_holdsNothing s, rfl⟩, fun s => ⟨rfl, rfl, fun _ => rfl, hardwareReset_holdsNothing s⟩⟩

theorem status_of_idle {s : State} (hph : s.ph = .idle) (herr : s.err = 0) : s.status = 0x00 :=
  (status_congr (t := .reset) hph herr).trans (by decide)

theorem faultLine_of_no_flag {s : State} (herr : s.err = 0) : s.faultLine = 0 :=
  (faultLine_congr (t := .reset) herr).trans (by decide)

/-- Settles O7: the three resets end in IDLE with no flag, and zeroise. -/
theorem resetValuesAreThoseOfTheTable : Obligations.ResetValuesAreThoseOfTheTable :=
  ⟨⟨reset_holdsNothing, rfl, rfl, status_of_idle rfl rfl, faultLine_of_no_flag rfl, rfl⟩,
    fun s => ⟨hardwareReset_holdsNothing s, hardwareReset_ph s, hardwareReset_err s,
      status_of_idle (hardwareReset_ph s) (hardwareReset_err s), faultLine_of_no_flag (hardwareReset_err s),
      hardwareReset_out s⟩,
    fun s => ⟨softReset s, exec_rst s, softReset_holdsNothing s, softReset_ph s, softReset_err s,
      status_of_idle (softReset_ph s) (softReset_err s), faultLine_of_no_flag (softReset_err s), softReset_out s⟩,
    rfl⟩

end Sys2Proof.Machine
end

section
/-! SUPPORT. The opcode map as a decoder, row by row; the illegal words by their fields; dispatch and legality by phase.
30_encoding.md R72, R74 to R76. -/

namespace Sys2Proof

/-! ## Rows -/

/-- The first row that selects a word is any row that selects it, as the rows do not overlap (30_encoding.md R72). -/
theorem find?_opcodeMap_eq_some_iff (c : Word) (r : OpcodeRow) :
    (opcodeMap.find? fun r => r.selects c) = some r ↔ r ∈ opcodeMap ∧ r.selects c = true := by
  refine ⟨fun h => ⟨List.mem_of_find?_eq_some h, by simpa using List.find?_some h⟩, fun ⟨hmem, hsel⟩ => ?_⟩
  obtain ⟨before, after, hsplit⟩ := List.append_of_mem hmem
  have hdisjoint := opcodeMap_disjoint c
  rw [hsplit, List.pairwise_append] at hdisjoint
  obtain ⟨-, -, hbefore⟩ := hdisjoint
  refine List.find?_eq_some_iff_append.2 ⟨hsel, before, after, hsplit, fun q hq => ?_⟩
  have hq' := hbefore q hq r List.mem_cons_self
  simpa [hsel] using hq'

theorem decode_eq_ok_iff_row (c : Word) (i : Instr) :
    decode c = .ok i ↔ ∃ r ∈ opcodeMap, r.selects c = true ∧ r.command (immField c) = i := by
  have hfind := find?_opcodeMap_eq_some_iff c
  unfold decode
  cases h : opcodeMap.find? fun r => r.selects c with
  | none =>
    have hnone : ∀ r ∈ opcodeMap, r.selects c = false := by simpa using h
    simp +contextual [hnone]
  | some r =>
    obtain ⟨hmem, hsel⟩ := (hfind r).1 h
    have honly : ∀ r', r' ∈ opcodeMap ∧ r'.selects c = true → r = r' := fun r' hr' =>
      Option.some.inj (h.symm.trans ((hfind r').2 hr'))
    constructor
    · intro hi
      exact ⟨r, hmem, hsel, by simpa using hi⟩
    · rintro ⟨r', hmem', hsel', rfl⟩
      rw [honly r' ⟨hmem', hsel'⟩]

theorem immField_eq_setWidth (c : Word) : immField c = c.setWidth 8 :=
  (BitVec.setWidth_eq_extractLsb' (by decide)).symm

theorem decode_eq_ok_iff (c : Word) (i : Instr) : decode c = .ok i ↔
    (c &&& 0xFFFF = 0x0000 ∧ i = .nop) ∨ (c &&& 0xFF00 = 0x0100 ∧ i = .kpush (c.setWidth 8)) ∨
    (c &&& 0xFFFF = 0x0200 ∧ i = .ksched) ∨ (c &&& 0xFF00 = 0x0300 ∧ i = .crypt (c.setWidth 8)) ∨
    (c &&& 0xFFFF = 0x0400 ∧ i = .fin) ∨ (c &&& 0xFFFF = 0x0500 ∧ i = .rst) := by
  rw [decode_eq_ok_iff_row, immField_eq_setWidth]
  simp only [opcodeMap, OpcodeRow.selects, List.exists_mem_cons_iff, List.not_mem_nil, false_and, exists_false, or_false,
    beq_iff_eq, eq_comm (b := i)]

/-- The phase column of the opcode map (30_encoding.md R72). -/
theorem legalIn_iff (i : Instr) (p : Machine.Phase) : Machine.legalIn i p = true ↔
    i = .nop ∨ i = .rst ∨ (p = .idle ∧ ((∃ b, i = .kpush b) ∨ i = .ksched)) ∨
      (p = .ready ∧ ((∃ b, i = .crypt b) ∨ i = .fin)) := by
  cases p with
  | idle => cases i <;> simp [Machine.legalIn]
  | ready => cases i <;> simp [Machine.legalIn]

/-- Settles O1: the rows do not overlap, so the first row that selects a word is the only one. -/
theorem wordsSelectTheirRowOfTheOpcodeMap : Obligations.WordsSelectTheirRowOfTheOpcodeMap :=
  ⟨decode_eq_ok_iff, legalIn_iff⟩

/-! ## Illegal words -/

theorem decode_wordOf_eq_error_iff (op imm8 : Byte) : (∃ e, decode (wordOf op imm8) = .error e) ↔
    6 ≤ op.toNat ∨ ((op = 0x00 ∨ op = 0x02 ∨ op = 0x04 ∨ op = 0x05) ∧ imm8 ≠ 0x00) := by
  by_cases h5 : op.toNat ≤ 5
  · obtain rfl | rfl | rfl | rfl | rfl | rfl := usedOpcode h5 <;> by_cases himm : imm8 = 0#8 <;> simp [decode_wordOf, himm]
  · have h1 : op ≠ 0x01 := by rintro rfl; exact h5 (by decide)
    have h3 : op ≠ 0x03 := by rintro rfl; exact h5 (by decide)
    have h6 : 6 ≤ op.toNat := by omega
    rw [decode_wordOf, if_neg h1, if_neg h3, if_pos (by omega)]
    exact ⟨fun _ => .inl h6, fun _ => ⟨_, rfl⟩⟩

namespace Machine

theorem length_allBytes : allBytes.length = 256 := by simp [allBytes]

theorem map_toNat_allBytes : allBytes.map BitVec.toNat = List.range 256 := by
  unfold allBytes
  rw [List.map_map]
  refine (List.map_congr_left fun n hn => ?_).trans (List.map_id _)
  exact (BitVec.toNat_ofNat n 8).trans (Nat.mod_eq_of_lt (List.mem_range.1 hn))

theorem length_filter_le_toNat (n : Nat) : (allBytes.filter fun b => decide (n ≤ b.toNat)).length = 256 - n := by
  have h : ((allBytes.map BitVec.toNat).filter fun m => decide (n ≤ m)).length = 256 - n := by
    rw [map_toNat_allBytes, ← List.Ico.zero_bot, List.Ico.filter_le, List.Ico.length, Nat.zero_max]
  rwa [List.filter_map, List.length_map] at h

theorem length_filter_ne (b : Byte) : (allBytes.filter fun a => a != b).length = 255 := by
  rw [← Memory.nodup_allBytes.erase_eq_filter, List.length_erase_of_mem (Memory.mem_allBytes b), length_allBytes]

/-! ## Dispatch -/

theorem acceptIllegal_of_faulted {s : State} (h : s.err ≠ 0) : acceptIllegal s = s :=
  if_pos ((faulted_iff s).2 h)

theorem acceptIllegal_of_not_faulted {s : State} (h : s.err = 0) : acceptIllegal s = raise .illegalCommand s :=
  if_neg fun hf => (faulted_iff s).1 hf h

theorem accept_of_error_of_faulted {c : Word} {e : DecodeError} {s : State} (hd : decode c = .error e) (h : s.err ≠ 0) :
    accept c s = .next s := by
  rw [accept_of_illegal hd, acceptIllegal_of_faulted h]

theorem accept_of_error_of_not_faulted {c : Word} {e : DecodeError} {s : State} (hd : decode c = .error e) (h : s.err = 0) :
    accept c s = .next (raise .illegalCommand s) := by
  rw [accept_of_illegal hd, acceptIllegal_of_not_faulted h]

/-- Settles O2: by the fields of the word; the counts are those of bytes from 6 on and of bytes other than 0x00. -/
theorem illegalWordsAreTheUnusedOpcodesAndStrayOperands : Obligations.IllegalWordsAreTheUnusedOpcodesAndStrayOperands := by
  refine ⟨decode_wordOf_eq_error_iff, ?_, ?_, fun _ _ _ => accept_of_error_of_not_faulted⟩
  · rw [length_filter_le_toNat, length_allBytes]
  · rw [length_filter_ne]; rfl

theorem exec_of_faulted {i : Instr} {s : State} (hi : i ≠ .rst) (h : s.err ≠ 0) : exec i s = .next s := by
  rw [exec_eq_guarded hi, guarded_of_faulted _ _ h]

/-- RST is legal in both phases and has no check to pass, so this holds of it as of the others. -/
theorem exec_of_legal {i : Instr} {s : State} {p : Phase} (h : s.err = 0) (hp : s.ph = p) (hl : legalIn i p = true) :
    exec i s = .next (bodyOf i s) := by
  subst hp
  by_cases hi : i = .rst
  · subst hi; exact exec_rst s
  · rw [exec_eq_guarded hi, guarded_of_legal _ h hl]

theorem ne_rst_of_illegal {i : Instr} {p : Phase} (hl : legalIn i p = false) : i ≠ .rst := by
  rintro rfl
  cases p <;> cases hl

theorem exec_of_illegal {i : Instr} {s : State} {p : Phase} (h : s.err = 0) (hp : s.ph = p) (hl : legalIn i p = false) :
    exec i s = .next (raise .badSequence s) := by
  subst hp
  rw [exec_eq_guarded (ne_rst_of_illegal hl), guarded_of_illegal _ h hl]

/-- Only the word 0x0500 is RST, so a faulted engine drops every other word. -/
theorem accept_of_faulted {c : Word} {s : State} (hc : c ≠ 0x0500) (h : s.err ≠ 0) : accept c s = .next s := by
  cases hd : decode c with
  | ok i =>
    have hi : i ≠ .rst := by rintro rfl; exact hc (encode_of_decode hd).symm
    rw [accept_of_decode hd, exec_of_faulted hi h]
  | error e => exact accept_of_error_of_faulted hd h

/-- The checks that `accept` spreads over the commands' meanings are the five steps of 30_encoding.md R75. -/
theorem accept_eq_dispatchInOrder (c : Word) (s : State) : accept c s = .next (dispatchInOrder c s) := by
  unfold dispatchInOrder
  split_ifs with hrst herr
  · subst hrst; exact accept_encode .rst s
  · exact accept_of_faulted hrst herr
  · have h0 : s.err = 0 := not_not.1 herr
    cases hd : decode c with
    | error e => exact accept_of_error_of_not_faulted hd h0
    | ok i =>
      rw [accept_of_decode hd]
      change exec i s = .next (if legalIn i s.ph then bodyOf i s else raise .badSequence s)
      split_ifs with hl
      · exact exec_of_legal h0 rfl hl
      · exact exec_of_illegal h0 rfl (by simpa using hl)

/-- Settles O18: the statement writes out `dispatchInOrder`. -/
theorem acceptFollowsTheDispatchOrder : Obligations.AcceptFollowsTheDispatchOrder :=
  accept_eq_dispatchInOrder

theorem exec_ksched_of_key {s : State} (h : s.err = 0) (hp : s.ph = .idle) (hk : s.klen ≠ 0) :
    exec .ksched s = .next (kschedFinish (kschedLoop s)) := by
  rw [exec_of_legal h hp rfl, ← kschedBody_of_key hk, bodyOf]

theorem exec_ksched_of_empty {s : State} (h : s.err = 0) (hp : s.ph = .idle) (hk : s.klen = 0) :
    exec .ksched s = .next (raise .invalidKey s) := by
  rw [exec_of_legal h hp rfl, ← kschedBody_of_empty hk, bodyOf]

/-- Settles O19: one conjunct per column of the table, IDLE, READY and faulted, then RST and the illegal words. -/
theorem commandsAreLegalByPhase : Obligations.CommandsAreLegalByPhase := by
  refine ⟨fun s h hp => ?_, fun s h hp => ?_, fun s h i hi => exec_of_faulted hi h, exec_rst,
    fun c e s hd => ⟨accept_of_error_of_not_faulted hd, accept_of_error_of_faulted hd⟩⟩
  · exact ⟨exec_of_legal h hp rfl, fun _ => exec_of_legal h hp rfl,
      fun hk => ⟨_, exec_ksched_of_key h hp hk, kschedFinish_ph _⟩, exec_ksched_of_empty h hp,
      fun _ => exec_of_illegal h hp rfl, exec_of_illegal h hp rfl⟩
  · exact ⟨exec_of_legal h hp rfl, fun _ => exec_of_illegal h hp rfl, exec_of_illegal h hp rfl,
      fun _ => exec_of_legal h hp rfl, exec_of_legal h hp rfl⟩

end Machine

end Sys2Proof
end

section
/-! SUPPORT. KPUSH, field by field; the machine's key schedule as the pure function of the buffered key. 40_key_schedule.md R90,
R94, R98 to R100. -/

namespace Sys2Proof

/-- The operand byte is the low byte of the word, so it adds to the opcode's row (30_encoding.md R70). -/
theorem wordOf_eq_add (op imm8 : Byte) : wordOf op imm8 = wordOf op 0x00 + imm8.setWidth 16 := by
  apply BitVec.eq_of_toNat_eq
  have happend : ∀ b : Byte, (wordOf op b).toNat = op.toNat * 256 + b.toNat := fun b => by
    rw [wordOf, BitVec.toNat_append, ← Nat.shiftLeft_add_eq_or_of_lt b.isLt, Nat.shiftLeft_eq]
  rw [BitVec.toNat_add, happend, happend, BitVec.toNat_setWidth]
  have hop := op.isLt
  have himm := imm8.isLt
  rw [show (0x00 : Byte).toNat = 0 from rfl]
  omega

namespace Machine

/-! ## The two index forms into `K` -/

theorem toNat_klen_pos {s : State} (h : s.klen ≠ 0) : 0 < s.klen.toNat :=
  Nat.pos_of_ne_zero fun h0 => h (BitVec.eq_of_toNat_eq h0)

theorem toNat_indexKlen {s : State} (h : s.klen.toNat < 256) : (indexKlen s).toNat = s.klen.toNat := by
  rw [indexKlen, BitVec.toNat_setWidth, Nat.mod_eq_of_lt h]

theorem toNat_indexIModKlen (s : State) : (indexIModKlen s).toNat = s.i.toNat % s.klen.toNat := by
  rw [indexIModKlen, BitVec.toNat_ofNat, Nat.mod_eq_of_lt ((Nat.mod_le _ _).trans_lt s.i.isLt)]

theorem toNat_indexIModKlen_lt {s : State} (h : s.klen ≠ 0) : (indexIModKlen s).toNat < s.klen.toNat := by
  rw [toNat_indexIModKlen]
  exact Nat.mod_lt _ (toNat_klen_pos h)

/-! ## KPUSH -/

theorem exec_kpush_of_room (b : Byte) {s : State} (h : s.err = 0) (hp : s.ph = .idle) (hroom : s.klen.toNat < 256) :
    exec (.kpush b) s = .next ((s.setKeys (s.K.write (indexKlen s) b)).setKlen (s.klen + 1)) := by
  rw [exec_of_legal h hp rfl, bodyOf, kpushBody_of_room b hroom]

theorem exec_kpush_of_full (b : Byte) {s : State} (h : s.err = 0) (hp : s.ph = .idle) (hfull : ¬ s.klen.toNat < 256) :
    exec (.kpush b) s = .next s := by
  rw [exec_of_legal h hp rfl, bodyOf, kpushBody_of_full b hfull]

/-- KLEN has room for the count 256. -/
theorem toNat_klen_add_one {s : State} (h : s.klen.toNat < 256) : (s.klen + 1).toNat = s.klen.toNat + 1 := by
  rw [BitVec.toNat_add, show (1 : BitVec 9).toNat = 1 from rfl]
  omega

/-- Settles O30: below 256 the byte is one write to `K`, and the rest is the phase table. -/
theorem kpushAppendsOneKeyByte : Obligations.KpushAppendsOneKeyByte := by
  refine fun b s => ⟨wordOf_eq_add 0x01 b, fun h hp hwf hroom => ⟨_, exec_kpush_of_room b h hp hroom, ?_⟩,
    exec_kpush_of_full b, fun h hp => exec_of_illegal h hp rfl, exec_of_faulted (by simp)⟩
  exact ⟨Memory.read_write_same hwf _ b, toNat_indexKlen hroom, fun a ha => Memory.read_write_other hwf b ha,
    toNat_klen_add_one hroom, rfl⟩

/-! ## The loop of KSCHED computes `ksa` -/

/-- One iteration is one step of the pure function, with the key byte at `i mod KLEN` (40_key_schedule.md R95). -/
theorem kschedIteration_eq_ksaIter (s : State) (c : Byte) : ((kschedIteration s c).S, (kschedIteration s c).j) =
    ksaIter s.S s.j c (s.K.read (indexIModKlen (s.setI c))) := rfl

/-- The iterations run in step with the pure fold over the key bytes `e` that they read. -/
theorem foldl_kschedIteration_eq_foldl_ksaIter {e : Byte → Byte} (l : List Byte) {s : State}
    (he : ∀ c, s.K.read (indexIModKlen (s.setI c)) = e c) :
    ((l.foldl kschedIteration s).S, (l.foldl kschedIteration s).j) =
      l.foldl (fun p c => ksaIter p.1 p.2 c (e c)) (s.S, s.j) := by
  induction l generalizing s with
  | nil => rfl
  | cons c rest ih =>
    have hkept : ∀ d, (kschedIteration s c).K.read (indexIModKlen ((kschedIteration s c).setI d)) = e d := he
    rw [List.foldl_cons, List.foldl_cons, ih hkept, kschedIteration_eq_ksaIter, he]

/-- The expansion of the buffered key is what the iterations read from `K` (40_key_schedule.md R98). -/
theorem keyExpansion_bufferedKey {s : State} (h : s.klen ≠ 0) (c : Byte) :
    keyExpansion (bufferedKey s) c = s.K.read (indexIModKlen (s.setI c)) := by
  have hlt : c.toNat % s.klen.toNat < s.klen.toNat := Nat.mod_lt _ (toNat_klen_pos h)
  rw [keyExpansion_of_key (bufferedKey_ne_nil h), bufferedKey_length, Memory.read, toNat_indexIModKlen]
  simp [bufferedKey, List.getD, hlt]

/-- The machine's loop leaves the schedule of the buffered key in `S`, whatever `S` held before (40_key_schedule.md R100). -/
theorem kschedLoop_S {s : State} (hwf : s.S.wf) (h : s.klen ≠ 0) : (kschedLoop s).S = ksa (bufferedKey s) := by
  have hstart : ∀ c, ((s.setS s.S.fillIdentity).setJ Config.accumulatorStart).K.read
      (indexIModKlen (((s.setS s.S.fillIdentity).setJ Config.accumulatorStart).setI c)) = keyExpansion (bufferedKey s) c :=
    fun c => (keyExpansion_bufferedKey h c).symm
  rw [kschedLoop, ksa, ksaOfExpansion, ← Memory.fillIdentity_eq hwf Memory.wf_zero]
  exact congrArg Prod.fst (foldl_kschedIteration_eq_foldl_ksaIter allBytes hstart)

/-- The next state of KSCHED in IDLE with a key (40_key_schedule.md R94). -/
theorem exec_ksched_eq {s : State} (herr : s.err = 0) (hp : s.ph = .idle) (hk : s.klen ≠ 0) (hwf : s.S.wf) :
    exec .ksched s = .next
      { s with S := ksa (bufferedKey s), K := Memory.zero, klen := 0, i := 0, j := 0, k := 0, z := 0, ph := .ready } := by
  have hfinish : ∀ t : State, kschedFinish t =
      { t with K := Memory.zero, klen := 0, i := 0, j := 0, k := 0, z := 0, ph := .ready } := fun _ => rfl
  obtain ⟨-, -, -, -, -, herr', hout, htaken, hpast, hhost, hfree⟩ := kschedLoop_frame s
  rw [exec_ksched_of_key herr hp hk, hfinish, kschedLoop_S hwf hk, herr', hout, htaken, hpast, hhost, hfree]

/-- The pure schedule of a key, written out (40_key_schedule.md R94 lines 2 to 7, R98). -/
theorem ksa_eq_foldl {key : List Byte} (h : key ≠ []) : ksa key = (((List.range 256).map (BitVec.ofNat 8)).foldl
    (fun p c => ksaIter p.1 p.2 c (key.getD (c.toNat % key.length) 0)) (Memory.zero.fillIdentity, 0)).1 := by
  rw [ksa, ksaOfExpansion, allBytes, Config.accumulatorStart]
  simp only [keyExpansion_of_key h]

/-- Settles O33: the loop runs in step with the pure schedule, and its finish writes the other fields. -/
theorem kschedRunsTheKeySchedule : Obligations.KschedRunsTheKeySchedule :=
  ⟨rfl, ⟨by rw [allBytes], Memory.read_fillIdentity Memory.wf_zero, rfl⟩, fun _ => ksa_eq_foldl,
    fun _ => ⟨exec_ksched_eq, exec_ksched_of_empty, fun h hp => exec_of_illegal h hp rfl, exec_of_faulted (by simp)⟩⟩

/-- Settles O34: the identity is a permutation, and every iteration exchanges two entries. -/
theorem kschedLeavesAPermutation : Obligations.KschedLeavesAPermutation := by
  intro s h hp hk hwf
  obtain ⟨-, hperm⟩ := kschedLoop_isPermutation hwf
  exact ⟨_, exec_ksched_of_key h hp hk, hperm, ((Memory.isPermutation_iff_bijective _).1 hperm).existsUnique⟩

/-- Buffers that agree below KLEN have one schedule: no iteration reads a byte from KLEN on (40_key_schedule.md R100). -/
theorem ksa_bufferedKey_congr {s t : State} (hklen : s.klen = t.klen) (hk : s.klen ≠ 0)
    (hK : ∀ n : Byte, n.toNat < s.klen.toNat → s.K.read n = t.K.read n) : ksa (bufferedKey s) = ksa (bufferedKey t) := by
  refine ksa_of_expansion fun c => ?_
  have hindex : indexIModKlen (s.setI c) = indexIModKlen (t.setI c) := by simp [indexIModKlen, hklen]
  rw [keyExpansion_bufferedKey hk, keyExpansion_bufferedKey (hklen ▸ hk), ← hindex]
  exact hK _ (toNat_indexIModKlen_lt (s := s.setI c) hk)

/-- Settles O35: each engine ends with `ksa` of its buffered key, and the two keys have one schedule. -/
theorem theScheduleDependsOnTheKeyAlone : Obligations.TheScheduleDependsOnTheKeyAlone := by
  refine ⟨fun s t s' t' hs ht hsp htp hsw htw hklen hk hK hs' ht' => ?_, fun _ _ => ⟨rfl, rfl⟩⟩
  rw [exec_ksched_eq hs hsp hk hsw] at hs'
  rw [exec_ksched_eq ht htp (hklen ▸ hk) htw] at ht'
  obtain rfl := Host.Outcome.next.inj hs'
  obtain rfl := Host.Outcome.next.inj ht'
  exact ⟨ksa_bufferedKey_congr hklen hk hK, rfl⟩

end Machine

end Sys2Proof
end

section
/-! SUPPORT. A swap, entry by entry; CRYPT line by line; FIN. 41_keystream.md R112, R113, R119. -/

namespace Sys2Proof.Machine

namespace Memory

theorem read_swap_left {m : Memory} (hm : m.wf) (a b : Byte) : (m.swap a b).read a = m.read b := by
  rw [read_swap hm, if_pos rfl]
  split_ifs with hab
  · rw [hab]
  · rfl

theorem read_swap_right {m : Memory} (hm : m.wf) (a b : Byte) : (m.swap a b).read b = m.read a := by
  rw [read_swap hm, if_pos rfl]

theorem read_swap_other {m : Memory} (hm : m.wf) {a b c : Byte} (ha : c ≠ a) (hb : c ≠ b) :
    (m.swap a b).read c = m.read c := by
  rw [read_swap hm, if_neg hb, if_neg ha]

end Memory

/-! ## CRYPT -/

/-- Line 1 (41_keystream.md R112). -/
theorem cryptBody_i (b : Byte) (s : State) : (cryptBody b s).i = s.i + Config.stepWidth := rfl

/-- Line 2, with the new `i` and the old `j`, `k` and `S`. -/
theorem cryptBody_j (b : Byte) (s : State) :
    (cryptBody b s).j = s.k + s.S.read (s.j + s.S.read (cryptBody b s).i) := rfl

/-- Line 3, with the new `i` and `j` and the old `k` and `S`. -/
theorem cryptBody_k (b : Byte) (s : State) :
    (cryptBody b s).k = (cryptBody b s).i + s.k + s.S.read (cryptBody b s).j := rfl

/-- Line 5, three dependent reads of `S` after the swap, with the old `z`. -/
theorem cryptBody_z (b : Byte) (s : State) : (cryptBody b s).z = (cryptBody b s).S.read ((cryptBody b s).j +
    (cryptBody b s).S.read ((cryptBody b s).i + (cryptBody b s).S.read (s.z + (cryptBody b s).k))) := rfl

/-- Line 6, with the new `z`. -/
theorem cryptBody_out_eq (b : Byte) (s : State) : (cryptBody b s).out = s.out ++ [b ^^^ (cryptBody b s).z] := rfl

/-- CRYPT writes `S`, the cursors and `OUT` only. -/
theorem cryptBody_frame (b : Byte) (s : State) : cryptBody b s =
    { s with S := (cryptBody b s).S, i := (cryptBody b s).i, j := (cryptBody b s).j, k := (cryptBody b s).k,
             z := (cryptBody b s).z, out := (cryptBody b s).out } := rfl

/-- CRYPT exchanges the entries at the new `i` and the new `j` and keeps every other. -/
theorem cryptBody_exchanges (b : Byte) {s : State} (hwf : s.S.wf) :
    (cryptBody b s).S.read (cryptBody b s).i = s.S.read (cryptBody b s).j ∧
    (cryptBody b s).S.read (cryptBody b s).j = s.S.read (cryptBody b s).i ∧
    ∀ a, a ≠ (cryptBody b s).i → a ≠ (cryptBody b s).j → (cryptBody b s).S.read a = s.S.read a := by
  rw [cryptBody_S]
  exact ⟨Memory.read_swap_left hwf _ _, Memory.read_swap_right hwf _ _, fun _ => Memory.read_swap_other hwf⟩

theorem exec_crypt_of_ready (b : Byte) {s : State} (h : s.err = 0) (hp : s.ph = .ready) :
    exec (.crypt b) s = .next (cryptBody b s) := by
  rw [exec_of_legal h hp rfl, bodyOf]

/-- Settles O37: the lines in order, then the phase table. -/
theorem cryptDoesTheSixLines : Obligations.CryptDoesTheSixLines := by
  refine fun b s => ⟨wordOf_eq_add 0x03 b, fun h hp => ⟨_, exec_crypt_of_ready b h hp, ?_⟩,
    fun h hp => exec_of_illegal h hp rfl, exec_of_faulted (by simp)⟩
  exact ⟨cryptBody_i b s, cryptBody_j b s, cryptBody_k b s, cryptBody_S b s, cryptBody_z b s, cryptBody_out_eq b s,
    cryptBody_frame b s, cryptBody_exchanges b⟩

/-! ## FIN -/

theorem finBody_holdsNothing (s : State) : (finBody s).holdsNothing := zeroize_holdsNothing s

/-- After FIN the engine is as after a reset but for ERR, `OUT` and the boundary (41_keystream.md R119). -/
theorem finBody_eq (s : State) : finBody s = { State.reset with
    err := s.err, out := s.out, taken := s.taken, past := s.past, host := s.host, free := s.free } := rfl

theorem exec_fin_of_ready {s : State} (h : s.err = 0) (hp : s.ph = .ready) : exec .fin s = .next (finBody s) := by
  rw [exec_of_legal h hp rfl, bodyOf]

/-- Settles O42: FIN in READY is zeroisation and PH; the rest is the phase table. -/
theorem finEndsTheMessage : Obligations.FinEndsTheMessage :=
  ⟨rfl, fun s => ⟨fun h hp => ⟨_, exec_fin_of_ready h hp, finBody_holdsNothing s, rfl, rfl, finBody_eq s⟩,
    fun h hp => exec_of_illegal h hp rfl, exec_of_faulted (by simp)⟩⟩

end Sys2Proof.Machine
end

section
/-! SUPPORT. The control family: NOP in every state, and RST beside hardware reset. 42_control.md R130, R131. -/

namespace Sys2Proof

/-- 0x0000 is the encoding of NOP, and a word decodes to a command only where it encodes it (30_encoding.md R72). -/
theorem decode_eq_nop_iff (c : Word) : decode c = .ok .nop ↔ c = 0x0000 := by
  constructor
  · intro h
    exact (encode_of_decode h).symm
  · rintro rfl
    exact Laws.RoundTrip.nop

namespace Machine

/-! ## NOP -/

/-- A faulted engine drops NOP; in both phases it is legal and its body is the identity. -/
theorem exec_nop (s : State) : exec .nop s = .next s := by
  by_cases h : s.err = 0
  · have hl : legalIn .nop s.ph = true := (legalIn_iff .nop s.ph).2 (.inl rfl)
    exact exec_of_legal h rfl hl
  · exact exec_of_faulted (by simp) h

/-- Only an operand 0x00 makes opcode 0x00 a command (30_encoding.md R74). -/
theorem accept_nop_of_stray_operand {b : Byte} {s : State} (hb : b ≠ 0) (h : s.err = 0) :
    accept (wordOf 0x00 b) s = .next (raise .illegalCommand s) := by
  obtain ⟨e, hd⟩ := (decode_wordOf_eq_error_iff 0x00 b).2 (.inr ⟨.inl rfl, hb⟩)
  exact accept_of_error_of_not_faulted hd h

/-- Settles O28: the decoder's NOP, its effect in every state, and the words that a stray operand makes illegal. -/
theorem nopChangesNothing : Obligations.NopChangesNothing :=
  ⟨rfl, decode_eq_nop_iff, exec_nop, fun _ _ => accept_nop_of_stray_operand⟩

/-! ## RST -/

/-- RST gives the reset state but for `OUT`, the boundary and the counter of free values (10_state.md R37). -/
theorem softReset_eq (s : State) : softReset s = { State.reset with
    out := s.out, taken := s.taken, past := s.past, host := s.host, free := s.free } := rfl

/-- Hardware reset is RST with `OUT` and its port emptied and the old history closed (70_reset_and_hazards.md R190). -/
theorem hardwareReset_eq_softReset (s : State) : hardwareReset s = { softReset s with
    out := [], taken := 0, past := (hardwareReset s).past, free := (hardwareReset s).free } := rfl

/-- Settles O29: RST is executed in every state, and its fields are those of the reset state. -/
theorem rstResetsEveryStateAndKeepsOut : Obligations.RstResetsEveryStateAndKeepsOut :=
  ⟨rfl, fun s => ⟨softReset s, exec_rst s, softReset_holdsNothing s, softReset_ph s, softReset_err s,
    status_of_idle (softReset_ph s) (softReset_err s), softReset_eq s⟩, hardwareReset_eq_softReset⟩

end Machine

end Sys2Proof
end

section
/-! SUPPORT. The pure function `transform`. 43_transform.md R141 to R146. -/

namespace Sys2Proof.Machine

namespace Cipher

@[simp] theorem apply_nil (c : Cipher) : apply [] c = [] := rfl

@[simp] theorem apply_cons (b : Byte) (rest : List Byte) (c : Cipher) :
    apply (b :: rest) c = (b ^^^ (ksgStep c).z) :: apply rest (ksgStep c) := rfl

@[simp] theorem length_apply (message : List Byte) (c : Cipher) : (apply message c).length = message.length := by
  induction message generalizing c with
  | nil => rfl
  | cons b rest ih => simp [ih]

/-- Each byte meets the same keystream byte twice (43_transform.md R143). -/
theorem apply_apply (message : List Byte) (c : Cipher) : apply (apply message c) c = message := by
  induction message generalizing c with
  | nil => rfl
  | cons b rest ih => simp [ih]

end Cipher

theorem transform_of_key {key : List Byte} (h : key ≠ []) (message : List Byte) :
    transform message key = .ok (Cipher.apply message (Cipher.start key)) := by
  simp [transform, wellFormedKey, h]

theorem transform_of_empty_key (message : List Byte) : transform message [] = .error .invalidKey := rfl

theorem transform_eq_ok_iff (message key output : List Byte) :
    transform message key = .ok output ↔ key ≠ [] ∧ Cipher.apply message (Cipher.start key) = output := by
  by_cases h : key = []
  · simp [h, transform_of_empty_key]
  · simp [h, transform_of_key]

end Sys2Proof.Machine
end

section
/-! SUPPORT. The commands of a call on the machine: the key bytes, KSCHED, the message bytes, FIN. `finBody` forgets all that
a call works on, so that it follows the rest of the state through the call. 43_transform.md R140. -/

namespace Sys2Proof.Machine

/-! ## Lists of commands -/

/-- What every body of a run over bytes keeps, the run keeps. -/
theorem foldl_keeps {α : Type} (g : State → α) {f : State → Byte → State} (h : ∀ t b, g (f t b) = g t)
    (bytes : List Byte) (s : State) : g (bytes.foldl f s) = g s := by
  induction bytes generalizing s with
  | nil => rfl
  | cons b rest ih => rw [List.foldl_cons, ih, h]

theorem acceptAll_encode_cons {i : Instr} {s t : State} (h : exec i s = .next t) (is : List Instr) :
    acceptAll ((i :: is).map encode) s = acceptAll (is.map encode) t :=
  acceptAll_cons ((accept_encode i s).trans h) _

/-- A command per byte, each legal in a phase that its body keeps, with no fault: the bodies run in order. -/
theorem acceptAll_encode_map {f : Byte → Instr} {p : Phase} (hl : ∀ b, legalIn (f b) p = true)
    (hph : ∀ b t, (bodyOf (f b) t).ph = t.ph) (herr : ∀ b t, (bodyOf (f b) t).err = t.err)
    (bytes : List Byte) {s : State} (h : s.err = 0) (hp : s.ph = p) :
    acceptAll ((bytes.map f).map encode) s = .next (bytes.foldl (fun t b => bodyOf (f b) t) s) := by
  induction bytes generalizing s with
  | nil => rfl
  | cons b rest ih =>
    rw [List.map_cons, acceptAll_encode_cons (exec_of_legal h hp (hl b)), List.foldl_cons,
      ih ((herr b s).trans h) ((hph b s).trans hp)]

/-- A faulted engine drops every command of a list without RST (30_encoding.md R75 step 2). -/
theorem acceptAll_encode_of_faulted {is : List Instr} (hrst : .rst ∉ is) {s : State} (h : s.err ≠ 0) :
    acceptAll (is.map encode) s = .next s := by
  induction is with
  | nil => rfl
  | cons i rest ih =>
    obtain ⟨hi, hrest⟩ := not_or.1 (mt List.mem_cons.2 hrst)
    rw [acceptAll_encode_cons (exec_of_faulted (Ne.symm hi) h), ih hrest]

/-! ## The key bytes -/

/-- The KPUSHes of a key, in IDLE. -/
def pushKey (key : List Byte) (s : State) : State :=
  key.foldl (fun t b => kpushBody b t) s

theorem kpushBody_eq (b : Byte) (s : State) :
    kpushBody b s = { s with K := (kpushBody b s).K, klen := (kpushBody b s).klen } := by
  unfold kpushBody
  split <;> rfl

@[simp] theorem kpushBody_S (b : Byte) (s : State) : (kpushBody b s).S = s.S := by rw [kpushBody_eq]

@[simp] theorem kpushBody_ph (b : Byte) (s : State) : (kpushBody b s).ph = s.ph := by rw [kpushBody_eq]

@[simp] theorem kpushBody_err (b : Byte) (s : State) : (kpushBody b s).err = s.err := by rw [kpushBody_eq]

@[simp] theorem finBody_kpushBody (b : Byte) (s : State) : finBody (kpushBody b s) = finBody s := by
  rw [kpushBody_eq]; rfl

@[simp] theorem pushKey_S (key : List Byte) (s : State) : (pushKey key s).S = s.S :=
  foldl_keeps State.S (fun t b => kpushBody_S b t) key s

@[simp] theorem pushKey_ph (key : List Byte) (s : State) : (pushKey key s).ph = s.ph :=
  foldl_keeps State.ph (fun t b => kpushBody_ph b t) key s

@[simp] theorem pushKey_err (key : List Byte) (s : State) : (pushKey key s).err = s.err :=
  foldl_keeps State.err (fun t b => kpushBody_err b t) key s

@[simp] theorem finBody_pushKey (key : List Byte) (s : State) : finBody (pushKey key s) = finBody s :=
  foldl_keeps finBody (fun t b => finBody_kpushBody b t) key s

theorem acceptAll_kpushes (key : List Byte) {s : State} (h : s.err = 0) (hp : s.ph = .idle) :
    acceptAll ((key.map .kpush).map encode) s = .next (pushKey key s) :=
  acceptAll_encode_map (f := .kpush) (fun _ => rfl) kpushBody_ph kpushBody_err key h hp

/-- KLEN counts up from below 256 and stays from there on, so it does not wrap to 0. -/
theorem kpushBody_klen_ne_zero (b : Byte) (s : State) : (kpushBody b s).klen ≠ 0 := by
  intro h0
  have hzero : (kpushBody b s).klen.toNat = 0 := congrArg BitVec.toNat h0
  by_cases hroom : s.klen.toNat < 256
  · rw [kpushBody_of_room b hroom, State.setKlen_klen, toNat_klen_add_one hroom] at hzero
    omega
  · rw [kpushBody_of_full b hroom] at hzero
    omega

theorem pushKey_klen_ne_zero {key : List Byte} (hkey : key ≠ []) (s : State) : (pushKey key s).klen ≠ 0 := by
  obtain ⟨before, b, rfl⟩ := (List.eq_nil_or_concat' key).resolve_left hkey
  rw [pushKey, List.foldl_append]
  exact kpushBody_klen_ne_zero b _

/-! ## The key that the pushes leave in the buffer -/

theorem wf_kpushBody_K (b : Byte) {s : State} (hwf : s.K.wf) : (kpushBody b s).K.wf := by
  by_cases hroom : s.klen.toNat < 256
  · rw [kpushBody_of_room b hroom]; exact Memory.wf_write hwf _ b
  · rwa [kpushBody_of_full b hroom]

/-- A write at the end of the buffered key leaves its bytes and follows them (40_key_schedule.md R90). -/
theorem bufferedKey_kpushBody (b : Byte) {s : State} (hwf : s.K.wf) (hroom : s.klen.toNat < 256) :
    bufferedKey (kpushBody b s) = bufferedKey s ++ [b] := by
  obtain ⟨hsorted, -⟩ := hwf
  have hread : ∀ n, (s.K.write (indexKlen s) b).readAt n = if n = s.klen.toNat then b else s.K.readAt n := fun n => by
    rw [Memory.write, Memory.readAt_writeAt hsorted, toNat_indexKlen hroom]
  have hbelow : ∀ n ∈ List.range s.klen.toNat, (s.K.write (indexKlen s) b).readAt n = s.K.readAt n := fun n hn => by
    rw [hread, if_neg (List.mem_range.1 hn).ne]
  rw [kpushBody_of_room b hroom, bufferedKey, State.setKlen_klen, State.setKlen_K, State.setKeys_K,
    toNat_klen_add_one hroom, List.range_succ, List.map_append, List.map_congr_left hbelow, List.map_singleton, hread,
    if_pos rfl, bufferedKey]

/-- The buffer takes the first 256 bytes (40_key_schedule.md R91, R92). -/
theorem bufferedKey_pushKey (key : List Byte) {s : State} (hwf : s.K.wf) (hlen : s.klen.toNat ≤ 256) :
    bufferedKey (pushKey key s) = (bufferedKey s ++ key).take 256 := by
  induction key generalizing s with
  | nil => simp [pushKey, hlen]
  | cons b rest ih =>
    change bufferedKey (pushKey rest (kpushBody b s)) = _
    by_cases hroom : s.klen.toNat < 256
    · have hlen' : (kpushBody b s).klen.toNat ≤ 256 := by
        rw [kpushBody_of_room b hroom, State.setKlen_klen, toNat_klen_add_one hroom]; omega
      rw [ih (wf_kpushBody_K b hwf) hlen', bufferedKey_kpushBody b hwf hroom, List.append_assoc, List.singleton_append]
    · have hfull : (bufferedKey s).length = 256 := by rw [bufferedKey_length]; omega
      rw [kpushBody_of_full b hroom, ih hwf hlen, List.take_append_of_le_length hfull.ge,
        List.take_append_of_le_length hfull.ge]

theorem bufferedKey_of_empty {s : State} (h : s.klen = 0) : bufferedKey s = [] :=
  List.eq_nil_of_length_eq_zero (by rw [bufferedKey_length, h]; rfl)

/-- No index reaches a byte of the key from the 257th on (40_key_schedule.md R98). -/
theorem keyExpansion_take {key : List Byte} (h : key ≠ []) (i : Byte) :
    keyExpansion (key.take 256) i = keyExpansion key i := by
  by_cases hlen : key.length ≤ 256
  · rw [List.take_of_length_le hlen]
  · have hi := i.isLt
    have hcut : (key.take 256).length = 256 := by rw [List.length_take]; omega
    have hne : key.take 256 ≠ [] := List.ne_nil_of_length_pos (by omega)
    rw [keyExpansion_of_key hne, keyExpansion_of_key h, hcut, Nat.mod_eq_of_lt hi, Nat.mod_eq_of_lt (by omega)]
    simp [List.getD, hi]

theorem ksa_take {key : List Byte} (h : key ≠ []) : ksa (key.take 256) = ksa key :=
  ksa_of_expansion (keyExpansion_take h)

/-! ## KSCHED -/

/-- The engine in READY at the first byte of the message: the key pushed and KSCHED done. -/
def startCall (key : List Byte) (s : State) : State :=
  kschedFinish (kschedLoop (pushKey key s))

theorem finBody_kschedFinish_kschedLoop (s : State) : finBody (kschedFinish (kschedLoop s)) = finBody s := by
  obtain ⟨-, -, -, -, -, herr, hout, htaken, hpast, hhost, hfree⟩ := kschedLoop_frame s
  rw [finBody_eq, finBody_eq]
  simp [herr, hout, htaken, hpast, hhost, hfree]

theorem finBody_startCall (key : List Byte) (s : State) : finBody (startCall key s) = finBody s := by
  rw [startCall, finBody_kschedFinish_kschedLoop, finBody_pushKey]

theorem startCall_ph (key : List Byte) (s : State) : (startCall key s).ph = .ready := kschedFinish_ph _

theorem startCall_err (key : List Byte) (s : State) : (startCall key s).err = s.err :=
  (congrArg State.err (finBody_startCall key s) :)

theorem startCall_out (key : List Byte) (s : State) : (startCall key s).out = s.out :=
  (congrArg State.out (finBody_startCall key s) :)

/-- The pass starts where the pure function does (43_transform.md R141). -/
theorem startCall_cipher {key : List Byte} (hkey : key ≠ []) {s : State} (hk : s.klen = 0) (hS : s.S.wf) (hK : s.K.wf) :
    (startCall key s).cipher = Cipher.start key := by
  have hbuffer : bufferedKey (pushKey key s) = key.take 256 := by
    rw [bufferedKey_pushKey key hK (by simp [hk]), bufferedKey_of_empty hk, List.nil_append]
  have hloop : (startCall key s).S = ksa key := by
    rw [startCall, kschedFinish_S, kschedLoop_S (by rwa [pushKey_S]) (pushKey_klen_ne_zero hkey s), hbuffer, ksa_take hkey]
  rw [Cipher.start, ← hloop]
  rfl

/-! ## The message bytes -/

/-- The CRYPTs of a message, in READY. -/
def cryptMessage (message : List Byte) (s : State) : State :=
  message.foldl (fun t b => cryptBody b t) s

theorem cryptMessage_ph (message : List Byte) (s : State) : (cryptMessage message s).ph = s.ph :=
  foldl_keeps State.ph (fun t b => cryptBody_ph b t) message s

theorem cryptMessage_err (message : List Byte) (s : State) : (cryptMessage message s).err = s.err :=
  foldl_keeps State.err (fun t b => cryptBody_err b t) message s

theorem acceptAll_crypts (message : List Byte) {s : State} (h : s.err = 0) (hp : s.ph = .ready) :
    acceptAll ((message.map .crypt).map encode) s = .next (cryptMessage message s) :=
  acceptAll_encode_map (f := .crypt) (fun _ => rfl) cryptBody_ph cryptBody_err message h hp

theorem State.setOut_setOut (s : State) (l l' : List Byte) : (s.setOut l).setOut l' = s.setOut l' := rfl

/-- Under FIN a CRYPT is its output byte. -/
theorem finBody_cryptBody (b : Byte) (s : State) :
    finBody (cryptBody b s) = (finBody s).setOut (cryptBody b s).out := rfl

/-- After FIN nothing is left of the message but its output (43_transform.md R141, R148). -/
theorem finBody_cryptMessage (message : List Byte) (s : State) :
    finBody (cryptMessage message s) = (finBody s).setOut (s.out ++ Cipher.apply message s.cipher) := by
  induction message generalizing s with
  | nil => rw [Cipher.apply_nil, List.append_nil]; rfl
  | cons b rest ih =>
    change finBody (cryptMessage rest (cryptBody b s)) = _
    rw [ih, finBody_cryptBody, State.setOut_setOut, cryptBody_cipher, cryptBody_out, List.append_assoc,
      List.singleton_append, Cipher.apply_cons]

/-! ## The call -/

theorem callWords_eq (key message : List Byte) : callWords key message =
    (key.map .kpush).map encode ++ ((.ksched :: message.map .crypt).map encode ++ [Instr.fin].map encode) := by
  simp [callWords, callCommands]

/-- A call from IDLE, whatever else the engine holds: it appends the message met with the keystream of the keyed state, and
FIN clears the rest. -/
theorem acceptAll_callWords {key : List Byte} (hkey : key ≠ []) (message : List Byte) {s : State} (h : s.err = 0)
    (hp : s.ph = .idle) : acceptAll (callWords key message) s =
      .next ((finBody s).setOut (s.out ++ Cipher.apply message (startCall key s).cipher)) := by
  have hksched : exec .ksched (pushKey key s) = .next (startCall key s) :=
    exec_ksched_of_key ((pushKey_err key s).trans h) ((pushKey_ph key s).trans hp) (pushKey_klen_ne_zero hkey s)
  have herr : (startCall key s).err = 0 := (startCall_err key s).trans h
  have hph : (startCall key s).ph = .ready := startCall_ph key s
  have hmessage : acceptAll ((.ksched :: message.map .crypt).map encode) (pushKey key s) =
      .next (cryptMessage message (startCall key s)) := by
    rw [acceptAll_encode_cons hksched, acceptAll_crypts message herr hph]
  have hfin : exec .fin (cryptMessage message (startCall key s)) = .next (finBody (cryptMessage message (startCall key s))) :=
    exec_fin_of_ready ((cryptMessage_err message _).trans herr) ((cryptMessage_ph message _).trans hph)
  rw [callWords_eq, acceptAll_append (acceptAll_kpushes key h hp), acceptAll_append hmessage, acceptAll_encode_cons hfin,
    finBody_cryptMessage, finBody_startCall, startCall_out]
  rfl

/-- The state that a call with this output leaves: the reset state but for `OUT` and the boundary (43_transform.md R148). -/
def afterCall (output : List Byte) (s : State) : State :=
  { State.reset with out := s.out ++ output, taken := s.taken, past := s.past, host := s.host, free := s.free }

theorem setOut_finBody {s : State} (h : s.err = 0) (output : List Byte) :
    (finBody s).setOut (s.out ++ output) = afterCall output s := by
  rw [finBody_eq, h]
  rfl

/-- A call on an engine at rest appends the bytes of the pure function (43_transform.md R141). -/
theorem acceptAll_callWords_at_rest {key : List Byte} (hkey : key ≠ []) (message : List Byte) {s : State} (h : s.err = 0)
    (hp : s.ph = .idle) (hk : s.klen = 0) (hS : s.S.wf) (hK : s.K.wf) :
    acceptAll (callWords key message) s = .next (afterCall (Cipher.apply message (Cipher.start key)) s) := by
  rw [acceptAll_callWords hkey message h hp, startCall_cipher hkey hk hS hK, setOut_finBody h]

end Sys2Proof.Machine
end

section
/-! SUPPORT. What 43_transform.md promises of calls, settled. -/

namespace Sys2Proof.Machine

/-- Settles O46: `Cipher.apply` keeps the length, and a call appends what it gives. -/
theorem callsPreserveLength : Obligations.CallsPreserveLength := by
  refine ⟨fun message key output h => ?_, fun message key s t hkey h hp _ ht => ?_⟩
  · obtain ⟨-, rfl⟩ := (transform_eq_ok_iff message key output).1 h
    exact Cipher.length_apply message _
  · rw [acceptAll_callWords hkey message h hp] at ht
    obtain rfl := Host.Outcome.next.inj ht
    simp

/-- Settles O47: both calls meet the same keystream, and the first leaves the engine at rest for the second. -/
theorem aSecondCallWithTheSameKeyRestoresTheMessage : Obligations.ASecondCallWithTheSameKeyRestoresTheMessage := by
  refine ⟨fun message key output h => ?_, fun message key output s t hkey h hp hk hS hK ht hout => ?_⟩
  · obtain ⟨hkey, rfl⟩ := (transform_eq_ok_iff message key output).1 h
    rw [transform_of_key hkey, Cipher.apply_apply]
  · rw [acceptAll_callWords_at_rest hkey message h hp hk hS hK] at ht
    obtain rfl := Host.Outcome.next.inj ht
    obtain rfl : Cipher.apply message (Cipher.start key) = output := List.append_cancel_left hout
    refine ⟨_, acceptAll_callWords_at_rest hkey _ rfl rfl rfl Memory.wf_zero Memory.wf_zero, ?_⟩
    rw [Cipher.apply_apply]
    rfl

/-- Settles O48: the pass over the empty message gives no byte, and FIN ends the call. -/
theorem theEmptyMessageGivesNoOutput : Obligations.TheEmptyMessageGivesNoOutput := by
  refine fun key hkey => ⟨transform_of_key hkey [], fun s h hp _ => ⟨_, acceptAll_callWords hkey [] h hp, ?_, h, rfl⟩⟩
  rw [Cipher.apply_nil, List.append_nil]
  rfl

/-! ## The empty key -/

theorem raise_err_ne_zero (e : EngineFault) {s : State} (h : s.err = 0) : (raise e s).err ≠ 0 := by
  rw [raise_err, h]
  cases e <;> decide

theorem status_raise_invalidKey {s : State} (h : s.err = 0) : (raise .invalidKey s).status = 0x02 :=
  (status_congr (s := raise .invalidKey s) (t := raise .invalidKey .reset) rfl (by rw [raise_err, h]; rfl)).trans (by decide)

/-- KSCHED comes first and faults, and the rest of the call is dropped (43_transform.md R146). -/
theorem acceptAll_callWords_of_empty_key (message : List Byte) {s : State} (h : s.err = 0) (hp : s.ph = .idle)
    (hk : s.klen = 0) : acceptAll (callWords [] message) s = .next (raise .invalidKey s) := by
  have hrst : Instr.rst ∉ message.map .crypt ++ [.fin] := by simp
  exact (acceptAll_encode_cons (exec_ksched_of_empty h hp hk) _).trans
    (acceptAll_encode_of_faulted hrst (raise_err_ne_zero _ h))

/-- Settles O49: KSCHED raises InvalidKey, and a faulted engine drops the rest of the call. -/
theorem theEmptyKeyFailsWithoutOutput : Obligations.TheEmptyKeyFailsWithoutOutput := fun message =>
  ⟨transform_of_empty_key message, fun _ h hp hk =>
    ⟨acceptAll_callWords_of_empty_key message h hp hk, raise_out _ _, status_raise_invalidKey h⟩⟩

/-- Settles O51: both calls append the bytes of the pure function, and leave the state `afterCall`. -/
theorem callsLeaveNoTraceForLaterCalls : Obligations.CallsLeaveNoTraceForLaterCalls := by
  intro key message s s' t t' hkey h hp hk hS hK h' hp' hk' hS' hK' ht ht'
  rw [acceptAll_callWords_at_rest hkey message h hp hk hS hK] at ht
  rw [acceptAll_callWords_at_rest hkey message h' hp' hk' hS' hK'] at ht'
  obtain rfl := Host.Outcome.next.inj ht
  obtain rfl := Host.Outcome.next.inj ht'
  exact ⟨⟨_, rfl, rfl⟩, rfl, rfl⟩

end Sys2Proof.Machine
end

section
/-! SUPPORT. The three faults: what fault entry leaves, which word raises which, and what a faulted engine drops.
60_exceptions.md R160 to R170. -/

namespace Sys2Proof.Machine

/-! ## Fault entry -/

theorem raise_holdsNothing (e : EngineFault) (s : State) : (raise e s).holdsNothing := zeroize_holdsNothing s

/-- Fault entry sets the flag of its fault and leaves the others (60_exceptions.md R166). -/
@[simp] theorem flag_raise (e e' : EngineFault) (s : State) : (raise e s).flag e' = (s.flag e' || decide (e' = e)) := by
  have hmask : (1 <<< e.code : BitVec 3).getLsbD e'.code = decide (e' = e) := by
    cases e <;> cases e' <;> decide
  rw [State.flag, raise_err, setFlag, BitVec.getLsbD_or, hmask, State.flag]

theorem flag_of_not_faulted {s : State} (h : s.err = 0) (e : EngineFault) : s.flag e = false := by
  rw [State.flag, h, BitVec.ofNat_eq_ofNat, BitVec.getLsbD_zero]

/-- The first fault shows only its own flag. -/
theorem flag_raise_of_not_faulted {s : State} (h : s.err = 0) (e e' : EngineFault) :
    (raise e s).flag e' = decide (e' = e) := by
  rw [flag_raise, flag_of_not_faulted h, Bool.false_or]

theorem raise_err_of_not_faulted {s : State} (h : s.err = 0) (e : EngineFault) :
    (raise e s).err = 1 ∨ (raise e s).err = 2 ∨ (raise e s).err = 4 := by
  rw [raise_err, h]
  cases e <;> decide

theorem status_raise_of_not_faulted {s : State} (h : s.err = 0) (e : EngineFault) :
    (raise e s).status = (raise e .reset).status :=
  status_congr rfl (by rw [raise_err, raise_err, h]; rfl)

/-- Settles O20: the other fields of `raise` are those of the state it starts from. -/
theorem faultEntryZeroisesAndSetsItsFlag : Obligations.FaultEntryZeroisesAndSetsItsFlag := by
  refine fun e s => ⟨raise_holdsNothing e s, raise_ph s e, ?_, fun e' he => ?_, rfl⟩
  · simp
  · simp [he]

/-! ## Causes -/

/-- The commands that a phase does not allow (60_exceptions.md R162). -/
theorem legalIn_eq_false_iff (i : Instr) (p : Phase) : legalIn i p = false ↔
    (((∃ b, i = .kpush b) ∨ i = .ksched) ∧ p = .ready) ∨ (((∃ b, i = .crypt b) ∨ i = .fin) ∧ p = .idle) := by
  cases p with
  | idle => cases i <;> simp [legalIn]
  | ready => cases i <;> simp [legalIn]

/-- A word that matches no row of the opcode map is no command (60_exceptions.md R163). -/
theorem decode_error_of_no_row {c : Word} (h : ∀ r ∈ opcodeMap, c &&& r.mask ≠ r.pattern) :
    ∃ e, decode c = .error e := by
  cases hd : decode c with
  | error e => exact ⟨e, rfl⟩
  | ok i =>
    obtain ⟨r, hmem, hsel, -⟩ := (decode_eq_ok_iff_row c i).1 hd
    exact absurd (by simpa [OpcodeRow.selects] using hsel) (h r hmem)

/-- Only KSCHED has a fault of its own, and only when no key byte was pushed. -/
theorem bodyOf_err {i : Instr} {s : State} (h : s.err = 0) (hkey : i = .ksched → s.klen ≠ 0) : (bodyOf i s).err = 0 := by
  cases i with
  | nop => exact h
  | kpush b => exact (kpushBody_err b s).trans h
  | ksched =>
    obtain ⟨-, -, -, -, -, herr, -⟩ := kschedLoop_frame s
    rw [bodyOf, kschedBody_of_key (hkey rfl), kschedFinish_err, herr, h]
  | crypt b => exact (cryptBody_err b s).trans h
  | fin => exact h
  | rst => exact softReset_err s

/-- What a word does to `ERR` on an engine that is not faulted: nothing, or one of the three faults is raised, each with its
cause (60_exceptions.md R160 to R163). -/
theorem accept_fault_cases {c : Word} {s t : State} (h : s.err = 0) (ht : accept c s = .next t) :
    t.err = 0 ∨
    (c = encode .ksched ∧ s.ph = .idle ∧ s.klen = 0 ∧ t = raise .invalidKey s) ∨
    (∃ i, decode c = .ok i ∧ legalIn i s.ph = false ∧ t = raise .badSequence s) ∨
    (∃ e, decode c = .error e ∧ t = raise .illegalCommand s) := by
  obtain ⟨i, hd, hi⟩ | ⟨e, hd, ⟨hf, -⟩ | ⟨-, rfl⟩⟩ := accept_cases ht
  · obtain ⟨-, rfl⟩ | ⟨-, hf, -⟩ | ⟨-, -, hl, rfl⟩ | ⟨-, -, hl, rfl⟩ := exec_cases hi
    · exact .inl (softReset_err s)
    · exact absurd h hf
    · exact .inr (.inr (.inl ⟨i, hd, hl, rfl⟩))
    · by_cases hempty : i = .ksched ∧ s.klen = 0
      · obtain ⟨rfl, hk⟩ := hempty
        have hp : s.ph = .idle := by simpa [legalIn_iff] using hl
        exact .inr (.inl ⟨(encode_of_decode hd).symm, hp, hk, kschedBody_of_empty hk⟩)
      · exact .inl (bodyOf_err h fun hi hk => hempty ⟨hi, hk⟩)
  · exact absurd h hf
  · exact .inr (.inr (.inr ⟨e, hd, rfl⟩))

/-- A word that raises a fault leaves the engine faulted. -/
theorem err_ne_zero_of_raise {e : EngineFault} {c : Word} {s t : State} (h : s.err = 0) (ht : accept c s = .next t)
    (hr : accept c s = .next (raise e s)) : t.err ≠ 0 := by
  obtain rfl : raise e s = t := Host.Outcome.next.inj (hr.symm.trans ht)
  exact raise_err_ne_zero e h

/-- On a faulted engine no word sets a flag: RST clears all of them and every other word is dropped. -/
theorem err_of_accept_of_faulted {c : Word} {s t : State} (h : s.err ≠ 0) (ht : accept c s = .next t) :
    t.err = s.err ∨ t.err = 0 := by
  by_cases hc : c = encode .rst
  · rw [hc, accept_encode, exec_rst] at ht
    obtain rfl := Host.Outcome.next.inj ht
    exact .inr (softReset_err s)
  · rw [accept_of_faulted hc h] at ht
    obtain rfl := Host.Outcome.next.inj ht
    exact .inl rfl

/-- A word faults exactly by the causes named in 60_exceptions.md R161 to R163. -/
theorem accept_faults_iff {c : Word} {s t : State} (h : s.err = 0) (ht : accept c s = .next t) : t.err ≠ 0 ↔
    (c = encode .ksched ∧ s.ph = .idle ∧ s.klen = 0) ∨
    (((∃ b, c = encode (.kpush b)) ∨ c = encode .ksched) ∧ s.ph = .ready) ∨
    (((∃ b, c = encode (.crypt b)) ∨ c = encode .fin) ∧ s.ph = .idle) ∨
    (∃ e, decode c = .error e) := by
  constructor
  · intro hf
    obtain h0 | ⟨hc, hp, hk, -⟩ | ⟨i, hd, hl, -⟩ | ⟨e, hd, -⟩ := accept_fault_cases h ht
    · exact absurd h0 hf
    · exact .inl ⟨hc, hp, hk⟩
    · rw [← encode_of_decode hd]
      obtain ⟨⟨b, rfl⟩ | rfl, hp⟩ | ⟨⟨b, rfl⟩ | rfl, hp⟩ := (legalIn_eq_false_iff i s.ph).1 hl
      · exact .inr (.inl ⟨.inl ⟨b, rfl⟩, hp⟩)
      · exact .inr (.inl ⟨.inr rfl, hp⟩)
      · exact .inr (.inr (.inl ⟨.inl ⟨b, rfl⟩, hp⟩))
      · exact .inr (.inr (.inl ⟨.inr rfl, hp⟩))
    · exact .inr (.inr (.inr ⟨e, hd⟩))
  · have wrongPhase : ∀ i p, c = encode i → s.ph = p → legalIn i p = false → t.err ≠ 0 := fun i p hc hp hl =>
      err_ne_zero_of_raise h ht (by rw [hc, accept_encode, exec_of_illegal h hp hl])
    rintro (⟨rfl, hp, hk⟩ | ⟨⟨b, hc⟩ | hc, hp⟩ | ⟨⟨b, hc⟩ | hc, hp⟩ | ⟨e, hd⟩)
    · exact err_ne_zero_of_raise h ht ((accept_encode _ s).trans (exec_ksched_of_empty h hp hk))
    · exact wrongPhase _ _ hc hp rfl
    · exact wrongPhase _ _ hc hp rfl
    · exact wrongPhase _ _ hc hp rfl
    · exact wrongPhase _ _ hc hp rfl
    · exact err_ne_zero_of_raise h ht (accept_of_error_of_not_faulted hd h)

/-- Settles O21: the causes and the faults are the cases of `accept_fault_cases`; a faulted engine raises nothing. -/
theorem theThreeFaultsHaveTheirCausesCodesAndStatus : Obligations.TheThreeFaultsHaveTheirCausesCodesAndStatus := by
  refine ⟨⟨rfl, rfl, rfl⟩, fun s h => ⟨status_raise_invalidKey h, ?_, ?_⟩, fun _ _ _ => accept_faults_iff,
    fun c s t h ht hf => ?_, fun _ _ _ => err_of_accept_of_faulted⟩
  · exact (status_raise_of_not_faulted h .badSequence).trans (by decide)
  · exact (status_raise_of_not_faulted h .illegalCommand).trans (by decide)
  · obtain h0 | ⟨hc, hp, -, rfl⟩ | ⟨i, hd, hl, rfl⟩ | ⟨e, hd, rfl⟩ := accept_fault_cases h ht
    · exact absurd h0 hf
    · exact .inl ⟨hc, hp, rfl⟩
    · exact .inr (.inl ⟨⟨i, hd, hl⟩, rfl⟩)
    · exact .inr (.inr ⟨⟨e, hd⟩, rfl⟩)

/-! ## Lists of words -/

theorem acceptAll_of_faulted {ws : List Word} {s : State} (h : s.err ≠ 0) (hws : ∀ c ∈ ws, c ≠ 0x0500) :
    acceptAll ws s = .next s := by
  induction ws with
  | nil => rfl
  | cons c rest ih =>
    obtain ⟨hc, hrest⟩ := List.forall_mem_cons.1 hws
    rw [acceptAll_cons (accept_of_faulted hc h), ih hrest]

/-- What every accepted word keeps, a list of words keeps. -/
theorem acceptAll_keeps {P : State → Prop} (hword : ∀ c s t, P s → accept c s = .next t → P t) {ws : List Word}
    {s t : State} (h : P s) (ht : acceptAll ws s = .next t) : P t := by
  induction ws generalizing s with
  | nil => obtain rfl : s = t := Host.Outcome.next.inj ht
           exact h
  | cons c rest ih =>
    obtain ⟨u, hu⟩ := accept_next c s
    rw [acceptAll_cons hu] at ht
    exact ih (hword c s u h hu) ht

/-- No flag is 1, or exactly one is (60_exceptions.md R167). -/
def State.atMostOneFlag (s : State) : Prop :=
  s.err = 0 ∨ s.err = 1 ∨ s.err = 2 ∨ s.err = 4

/-- The first fault sets one flag, and a faulted engine sets no further one. -/
theorem accept_keeps_atMostOneFlag (c : Word) (s t : State) (hs : s.atMostOneFlag) (ht : accept c s = .next t) :
    t.atMostOneFlag := by
  by_cases h : s.err = 0
  · obtain h0 | ⟨-, -, -, rfl⟩ | ⟨-, -, -, rfl⟩ | ⟨-, -, rfl⟩ := accept_fault_cases h ht
    · exact .inl h0
    · exact .inr (raise_err_of_not_faulted h _)
    · exact .inr (raise_err_of_not_faulted h _)
    · exact .inr (raise_err_of_not_faulted h _)
  · obtain hsame | h0 := err_of_accept_of_faulted h ht
    · rwa [State.atMostOneFlag, hsame]
    · exact .inl h0

/-- Settles O23: each word is dropped, by induction on the list; at most one flag is kept by every word. -/
theorem aFaultedEngineDropsEveryWordButRst : Obligations.AFaultedEngineDropsEveryWordButRst :=
  ⟨fun _ _ => acceptAll_of_faulted, fun _ _ _ h => acceptAll_keeps accept_keeps_atMostOneFlag (.inl h)⟩

/-! ## Priority -/

/-- Settles O25: the phase is checked before the body of KSCHED, and a first fault shows only its own flag. -/
theorem faultPriorityIsWordThenPhaseThenKey : Obligations.FaultPriorityIsWordThenPhaseThenKey := by
  refine ⟨fun _ _ _ => accept_of_error_of_not_faulted, fun s h hp => ?_, fun s h hp hk => ?_⟩
  · exact ⟨_, exec_of_illegal h hp rfl, flag_raise_of_not_faulted h _ _, flag_raise_of_not_faulted h _ _⟩
  · exact ⟨_, exec_ksched_of_empty h hp hk, flag_raise_of_not_faulted h _ _, flag_raise_of_not_faulted h _ _⟩

/-- Settles O26: the phase table for the four commands, and no row for the illegal words. -/
theorem wrongPhaseAndIllegalWordsFault : Obligations.WrongPhaseAndIllegalWordsFault := by
  refine ⟨fun s h hp => ?_, fun s h hp => ?_, fun c s h hrow => ?_⟩
  · exact ⟨fun _ => exec_of_illegal h hp rfl, exec_of_illegal h hp rfl⟩
  · exact ⟨fun _ => exec_of_illegal h hp rfl, exec_of_illegal h hp rfl⟩
  · obtain ⟨e, hd⟩ := decode_error_of_no_row hrow
    exact accept_of_error_of_not_faulted hd h

end Sys2Proof.Machine
end

section
/-! SUPPORT. The obligations of 70_reset_and_hazards.md: KSCHED with an empty key buffer (R201). -/

namespace Sys2Proof.Machine

/-- Settles O22: KSCHED with an empty key buffer is fault entry, which zeroises before any schedule and keeps OUT. -/
theorem emptyKeyRaisesInvalidKey : Obligations.EmptyKeyRaisesInvalidKey := by
  intro s h hp hk
  have hflag : (raise .invalidKey s).flag .invalidKey = true := flag_raise_of_not_faulted h _ _
  exact ⟨raise .invalidKey s, exec_ksched_of_empty h hp hk, hflag, raise_ph s _, raise_holdsNothing _ s, raise_out s _,
    status_raise_invalidKey h⟩

end Sys2Proof.Machine
end

section
/-! SUPPORT. Serialised streams of commands, two bytes each, opcode byte first. 20_memory.md R56, 30_encoding.md R72. -/

namespace Sys2Proof

theorem decode_encode (i : Instr) : decode (encode i) = .ok i := by
  cases i with
  | nop => exact Laws.RoundTrip.nop
  | kpush b => exact Laws.RoundTrip.kpush b
  | ksched => exact Laws.RoundTrip.ksched
  | crypt b => exact Laws.RoundTrip.crypt b
  | fin => exact Laws.RoundTrip.fin
  | rst => exact Laws.RoundTrip.rst

theorem wellFormed_eq_true (i : Instr) : wellFormed i = true := by
  cases i with
  | kpush b => exact (Laws.LegalWord.kpush b).left
  | crypt b => exact (Laws.LegalWord.crypt b).left
  | nop | ksched | fin | rst => rfl

theorem serialise_encode (i : Instr) : serialise (encode i) = [opcodeOf i, operandOf i] := by
  rw [serialise, encode, opField_wordOf, immField_wordOf]

theorem encodeStream_cons (i : Instr) (is : List Instr) :
    encodeStream (i :: is) = opcodeOf i :: operandOf i :: encodeStream is := by
  rw [encodeStream, List.flatMap_cons, serialise_encode]
  rfl

theorem decodeStream_encodeStream (is : List Instr) : decodeStream (encodeStream is) = .ok is := by
  induction is with
  | nil => rfl
  | cons i is ih =>
    have hi : decode (wordOf (opcodeOf i) (operandOf i)) = .ok i := decode_encode i
    rw [encodeStream_cons, decodeStream, hi, ih]

/-- What a stream with a word in front decodes to: that word's command, and what the rest decodes to. -/
theorem decodeStream_cons_cons {op imm8 : Byte} {rest : List Byte} {is : List Instr}
    (h : decodeStream (op :: imm8 :: rest) = .ok is) :
    ∃ i is', is = i :: is' ∧ decode (wordOf op imm8) = .ok i ∧ decodeStream rest = .ok is' := by
  cases hi : decode (wordOf op imm8) with
  | error e => simp [decodeStream, hi] at h
  | ok i =>
    cases hrest : decodeStream rest with
    | error e => simp [decodeStream, hi, hrest] at h
    | ok is' => exact ⟨i, is', by simpa [decodeStream, hi, hrest] using h.symm, rfl, rfl⟩

/-- No other stream decodes to these commands: each of its words is the encoding of its command (30_encoding.md R72). -/
theorem encodeStream_of_decodeStream : ∀ {bytes : List Byte} {is : List Instr}, decodeStream bytes = .ok is →
    encodeStream is = bytes
  | op :: imm8 :: rest, is, h => by
    obtain ⟨i, is', rfl, hi, hrest⟩ := decodeStream_cons_cons h
    have hword : [opcodeOf i, operandOf i] = [op, imm8] := by
      rw [← serialise_encode, encode_of_decode hi, serialise, opField_wordOf, immField_wordOf]
    obtain ⟨hop, himm⟩ : opcodeOf i = op ∧ operandOf i = imm8 := by simpa using hword
    rw [encodeStream_cons, hop, himm, encodeStream_of_decodeStream hrest]
  | [_], is, h => by cases h
  | [], is, h => by
    obtain rfl : [] = is := by simpa [decodeStream] using h
    rfl

theorem length_encodeStream (is : List Instr) : (encodeStream is).length = 2 * is.length := by
  induction is with
  | nil => rfl
  | cons i is ih => rw [encodeStream_cons, List.length_cons, List.length_cons, List.length_cons, ih]; omega

/-- Settles O4: by induction on the commands, and back by induction on the words of the stream. -/
theorem serialisedStreamsDecodeToTheirCommands : Obligations.SerialisedStreamsDecodeToTheirCommands :=
  ⟨fun i => ⟨wellFormed_eq_true i, serialise_encode i⟩, decodeStream_encodeStream, fun bytes is h => by
    obtain rfl := encodeStream_of_decodeStream h
    exact ⟨rfl, length_encodeStream is⟩⟩

/-- Settles O3: each word by its fields. -/
theorem sampleWordsDecodeAsTheSpecWritesThem : Obligations.SampleWordsDecodeAsTheSpecWritesThem := by
  unfold Obligations.SampleWordsDecodeAsTheSpecWritesThem
  decide

end Sys2Proof
end

section
/-! SUPPORT. The state invariants through bodies, commands, words, the acts of the host, steps and runs. 10_state.md R39. -/

namespace Sys2Proof.Machine

/-! ## Zeroised engines -/

/-- A zeroised engine in IDLE: after FIN, RST, a fault or a hardware reset. What of R39 is left to show is of ERR and the
port. -/
theorem State.Inv.of_zeroized {t : State} (hz : zeroize t = t) (hph : t.ph = .idle) (hflag : t.atMostOneFlag)
    (hport : t.taken ≤ t.out.length) : t.Inv := by
  have hS : t.S = Memory.zero := by rw [← hz, zeroize_S]
  have hK : t.K = Memory.zero := by rw [← hz, zeroize_K]
  have hklen : t.klen = 0 := by rw [← hz, zeroize_klen]
  have hcursors : t.i = 0 ∧ t.j = 0 ∧ t.k = 0 ∧ t.z = 0 := by rw [← hz]; exact ⟨rfl, rfl, rfl, rfl⟩
  exact {
    sWf := hS ▸ Memory.wf_zero
    kWf := hK ▸ Memory.wf_zero
    ready := fun h => by simp [hph] at h
    faulted := fun _ => ⟨hph, hklen, by simp [hS], by simp [hK], hcursors⟩
    idle := fun _ => ⟨by simp [hS], hcursors⟩
    keyLength := by simp [hklen, hK]
    oneFlag := hflag
    port := hport }

/-- Settles O8: nothing was pushed, keyed, emitted or raised. -/
theorem resetStateMeetsTheInvariants : Obligations.ResetStateMeetsTheInvariants :=
  State.Inv.of_zeroized (t := State.reset) rfl rfl (.inl rfl) (Nat.le_refl 0)

/-- A push writes at an index below the KLEN that it leaves. -/
theorem read_kpushBody_of_ge (b : Byte) {s : State} (hwf : s.K.wf) {n : Byte} (hn : s.klen.toNat + 1 ≤ n.toNat) :
    (kpushBody b s).K.read n = s.K.read n := by
  have hn256 := n.isLt
  have hroom : s.klen.toNat < 256 := by omega
  have hne : n ≠ indexKlen s := by
    rintro rfl
    rw [toNat_indexKlen hroom] at hn
    omega
  rw [kpushBody_of_room b hroom]
  exact Memory.read_write_other hwf b hne

namespace State.Inv

variable {s : State}

/-- The invariants do not speak of what the host is still to do. -/
theorem setHost (h : s.Inv) (rest : List HostAction) : (s.setHost rest).Inv := { h with }

/-- R39 (b). -/
theorem holdsNothing_of_faulted (h : s.Inv) (he : s.err ≠ 0) : s.holdsNothing := by
  obtain ⟨-, hklen, hS, hK, hi, hj, hk, hz⟩ := h.faulted he
  exact ⟨hS, hK, hi, hj, hk, hz, hklen⟩

/-! ## Bodies -/

theorem after_raise (h : s.Inv) (he : s.err = 0) (e : EngineFault) : (raise e s).Inv :=
  of_zeroized rfl rfl (.inr (raise_err_of_not_faulted he e)) h.port

theorem after_softReset (h : s.Inv) : (softReset s).Inv :=
  of_zeroized rfl rfl (.inl rfl) h.port

theorem after_finBody (h : s.Inv) : (finBody s).Inv :=
  of_zeroized rfl rfl h.oneFlag h.port

theorem after_hardwareReset (s : State) : (hardwareReset s).Inv :=
  of_zeroized rfl rfl (.inl rfl) (Nat.zero_le _)

/-- A key byte goes to index KLEN, so that from the new KLEN on the buffer still reads 0. -/
theorem after_kpushBody (h : s.Inv) (he : s.err = 0) (hp : s.ph = .idle) (b : Byte) : (kpushBody b s).Inv := by
  by_cases hroom : s.klen.toNat < 256
  · have hbeyond : ∀ n : Byte, s.klen.toNat + 1 ≤ n.toNat → (kpushBody b s).K.read n = 0 := fun n hn => by
      obtain ⟨-, hzero⟩ := h.keyLength
      rw [read_kpushBody_of_ge b h.kWf hn, hzero n (by omega)]
    rw [kpushBody_of_room b hroom] at hbeyond ⊢
    exact { h with
      kWf := Memory.wf_write h.kWf _ b
      ready := fun hr => by simp [hp] at hr
      faulted := fun hf => absurd he hf
      keyLength := by
        rw [State.setKlen_klen, toNat_klen_add_one hroom]
        exact ⟨by omega, hbeyond⟩ }
  · rwa [kpushBody_of_full b hroom]

/-- KSCHED puts a permutation in `S` and clears the key. -/
theorem after_kschedBody (h : s.Inv) (he : s.err = 0) : (kschedBody s).Inv := by
  by_cases hkey : s.klen = 0
  · rw [kschedBody_of_empty hkey]
    exact h.after_raise he _
  · obtain ⟨hwf, hperm⟩ := kschedLoop_isPermutation h.sWf
    obtain ⟨-, -, -, -, -, herr, hout, htaken, -⟩ := kschedLoop_frame s
    rw [kschedBody_of_key hkey]
    exact {
      sWf := hwf
      kWf := Memory.wf_zero
      ready := fun _ => ⟨herr.trans he, rfl, Memory.read_zero, hperm⟩
      faulted := fun hf => absurd (herr.trans he) hf
      idle := fun hi => by simp at hi
      keyLength := ⟨Nat.zero_le _, fun n _ => Memory.read_zero n⟩
      oneFlag := .inl (herr.trans he)
      port := by rw [kschedFinish_taken, kschedFinish_out, htaken, hout]; exact h.port }

/-- CRYPT exchanges two entries of the permutation and emits a byte. -/
theorem after_cryptBody (h : s.Inv) (hp : s.ph = .ready) (b : Byte) : (cryptBody b s).Inv := by
  obtain ⟨he, hklen, hK, hperm⟩ := h.ready hp
  exact {
    sWf := Memory.wf_swap h.sWf _ _
    kWf := h.kWf
    ready := fun _ => ⟨he, hklen, hK, Memory.isPermutation_swap h.sWf hperm _ _⟩
    faulted := fun hf => absurd he hf
    idle := fun hi => by simp [hp] at hi
    keyLength := h.keyLength
    oneFlag := h.oneFlag
    port := by rw [cryptBody_out, List.length_append]; exact h.port.trans (Nat.le_add_right _ _) }

theorem after_bodyOf {i : Instr} (h : s.Inv) (he : s.err = 0) (hl : legalIn i s.ph = true) : (bodyOf i s).Inv := by
  cases i with
  | nop => exact h
  | kpush b => exact h.after_kpushBody he (by simpa [legalIn_iff] using hl) b
  | ksched => exact h.after_kschedBody he
  | crypt b => exact h.after_cryptBody (by simpa [legalIn_iff] using hl) b
  | fin => exact h.after_finBody
  | rst => exact h.after_softReset

/-! ## Commands, words, steps -/

theorem after_exec {i : Instr} {t : State} (h : s.Inv) (ht : exec i s = .next t) : t.Inv := by
  obtain ⟨-, rfl⟩ | ⟨-, -, rfl⟩ | ⟨-, he, -, rfl⟩ | ⟨-, he, hl, rfl⟩ := exec_cases ht
  · exact h.after_softReset
  · exact h
  · exact h.after_raise he _
  · exact h.after_bodyOf he hl

theorem after_accept {c : Word} {t : State} (h : s.Inv) (ht : accept c s = .next t) : t.Inv := by
  obtain ⟨i, -, hi⟩ | ⟨e, -, ⟨-, rfl⟩ | ⟨he, rfl⟩⟩ := accept_cases ht
  · exact h.after_exec hi
  · exact h
  · exact h.after_raise he _

/-- The host takes only a byte that stands on the port. -/
theorem after_takeFromPort (h : s.Inv) : (takeFromPort s).Inv := by
  obtain hsame | ⟨hport, htake⟩ := takeFromPort_eq s
  · rwa [hsame]
  · have hlt : s.taken < s.out.length := by simpa [State.onPort] using hport
    rw [htake]
    exact { h with port := hlt }

theorem after_step {t : State} (h : s.Inv) (ht : step s = .next t) : t.Inv := by
  obtain ⟨-, rfl⟩ | ⟨c, rest, -, hc⟩ | ⟨rest, -, rfl⟩ | ⟨c, rest, -, rfl⟩ | ⟨rest, -, rfl⟩ := step_cases ht
  · exact h
  · exact (h.setHost rest).after_accept hc
  · exact after_hardwareReset _
  · exact after_hardwareReset _
  · exact (h.setHost rest).after_takeFromPort

theorem after_run {n : Nat} {t : State} (h : s.Inv) (ht : Host.Core.run core n s = .next t) : t.Inv :=
  run_keeps (fun _ _ => after_step) h ht

end State.Inv

/-- Settles O9: `State.Inv` is inductive; each body keeps it, and every act of the host is made of bodies and resets. -/
theorem stepKeepsTheInvariants : Obligations.StepKeepsTheInvariants :=
  fun _ _ => State.Inv.after_step

end Sys2Proof.Machine
end

section
/-! SUPPORT. What a word does to an engine, said once with its cause, and the safety statements read off it: PH, `OUT`, ERR, the
cursors and the secret state. 10_state.md section 4, 60_exceptions.md section 2, 70_reset_and_hazards.md section 3. -/

namespace Sys2Proof.Machine

/-! ## The effect of a word -/

/-- What accepting the word `c` can do to `s`. A NOP and a dropped word leave it as it is. -/
inductive AcceptEffect (c : Word) (s : State) : State → Prop
  | unchanged : AcceptEffect c s s
  | fault (herr : s.err = 0) (e : EngineFault) : AcceptEffect c s (raise e s)
  | kpush (b : Byte) (hph : s.ph = .idle) : AcceptEffect c s (kpushBody b s)
  | ksched (hc : c = encode .ksched) (herr : s.err = 0) (hph : s.ph = .idle) (hkey : s.klen ≠ 0) :
      AcceptEffect c s (kschedFinish (kschedLoop s))
  | crypt (b : Byte) (hc : c = encode (.crypt b)) (herr : s.err = 0) (hph : s.ph = .ready) : AcceptEffect c s (cryptBody b s)
  | fin (hc : c = encode .fin) (hph : s.ph = .ready) : AcceptEffect c s (finBody s)
  | rst (hc : c = encode .rst) : AcceptEffect c s (softReset s)

theorem acceptEffect_of_legal {c : Word} {i : Instr} {s : State} (hc : c = encode i) (herr : s.err = 0)
    (hl : legalIn i s.ph = true) : AcceptEffect c s (bodyOf i s) := by
  cases i with
  | nop => exact .unchanged
  | kpush b => exact .kpush b (by simpa [legalIn_iff] using hl)
  | ksched =>
    by_cases hkey : s.klen = 0
    · rw [bodyOf, kschedBody_of_empty hkey]; exact .fault herr _
    · rw [bodyOf, kschedBody_of_key hkey]; exact .ksched hc herr (by simpa [legalIn_iff] using hl) hkey
  | crypt b => exact .crypt b hc herr (by simpa [legalIn_iff] using hl)
  | fin => exact .fin hc (by simpa [legalIn_iff] using hl)
  | rst => exact .rst hc

theorem acceptEffect_of_accept {c : Word} {s t : State} (h : accept c s = .next t) : AcceptEffect c s t := by
  obtain ⟨i, hd, hi⟩ | ⟨e, -, ⟨-, rfl⟩ | ⟨herr, rfl⟩⟩ := accept_cases h
  · have hc : c = encode i := (encode_of_decode hd).symm
    obtain ⟨rfl, rfl⟩ | ⟨-, -, rfl⟩ | ⟨-, herr, -, rfl⟩ | ⟨-, herr, hl, rfl⟩ := exec_cases hi
    · exact .rst hc
    · exact .unchanged
    · exact .fault herr _
    · exact acceptEffect_of_legal hc herr hl
  · exact .unchanged
  · exact .fault herr _

theorem kschedLoop_err (s : State) : (kschedLoop s).err = s.err := by
  obtain ⟨-, -, -, -, -, herr, -⟩ := kschedLoop_frame s
  exact herr

theorem kschedLoop_out (s : State) : (kschedLoop s).out = s.out := by
  obtain ⟨-, -, -, -, -, -, hout, -⟩ := kschedLoop_frame s
  exact hout

theorem kschedLoop_taken (s : State) : (kschedLoop s).taken = s.taken := by
  obtain ⟨-, -, -, -, -, -, -, htaken, -⟩ := kschedLoop_frame s
  exact htaken

namespace AcceptEffect

variable {c : Word} {s t : State}

/-- `OUT` grows by the byte of a CRYPT or stays. -/
theorem out (h : AcceptEffect c s t) : t.out = s.out ∨
    ∃ b, c = encode (.crypt b) ∧ s.ph = .ready ∧ s.err = 0 ∧ t = cryptBody b s := by
  cases h with
  | crypt b hc herr hph => exact .inr ⟨b, hc, hph, herr, rfl⟩
  | kpush b => exact .inl (by rw [kpushBody_eq])
  | ksched => exact .inl (kschedLoop_out s)
  | unchanged | fault | fin | rst => exact .inl rfl

/-- ERR changes by fault entry and by RST only. -/
theorem err (h : AcceptEffect c s t) : t.err = s.err ∨ (s.err = 0 ∧ ∃ e, t = raise e s) ∨
    (c = encode .rst ∧ t = softReset s) := by
  cases h with
  | fault herr e => exact .inr (.inl ⟨herr, e, rfl⟩)
  | rst hc => exact .inr (.inr ⟨hc, rfl⟩)
  | kpush b => exact .inl (kpushBody_err b s)
  | ksched => exact .inl (kschedLoop_err s)
  | unchanged | crypt | fin => exact .inl rfl

end AcceptEffect

/-! ## The effect of a step -/

/-- Both forms of hardware reset are acts of the host. -/
def HostAction.isReset (a : HostAction) : Prop :=
  a = .reset ∨ ∃ c, a = .resetDuring c

theorem takeFromPort_frame (s : State) : takeFromPort s = { s with taken := (takeFromPort s).taken } := by
  obtain h | ⟨-, h⟩ := takeFromPort_eq s
  · rw [h]
  · rw [h]; rfl

/-- What a step can do: nothing but at the boundary, the effect of a word, a hardware reset. -/
theorem step_effect {s t : State} (h : step s = .next t) :
    (∃ host taken, t = { s with host := host, taken := taken }) ∨
    (∃ c rest, s.host = .command c :: rest ∧ AcceptEffect c (s.setHost rest) t) ∨
    (∃ a u, s.host = a :: u.host ∧ a.isReset ∧ t = hardwareReset u) := by
  obtain ⟨-, rfl⟩ | ⟨c, rest, hh, hc⟩ | ⟨rest, hh, rfl⟩ | ⟨c, rest, hh, rfl⟩ | ⟨rest, -, rfl⟩ := step_cases h
  · exact .inl ⟨t.host, t.taken, rfl⟩
  · exact .inr (.inl ⟨c, rest, hh, acceptEffect_of_accept hc⟩)
  · exact .inr (.inr ⟨_, _, hh, .inl rfl, rfl⟩)
  · exact .inr (.inr ⟨_, _, hh, .inr ⟨c, rfl⟩, rfl⟩)
  · exact .inl ⟨rest, _, takeFromPort_frame _⟩

/-! ## PH -/

theorem step_idle_to_ready {s t : State} (h : step s = .next t) (hs : s.ph = .idle) (ht : t.ph = .ready) :
    ∃ rest, s.host = .command (encode .ksched) :: rest ∧ s.err = 0 ∧ s.klen ≠ 0 ∧
      t = kschedFinish (kschedLoop (s.setHost rest)) := by
  obtain ⟨host, taken, rfl⟩ | ⟨c, rest, hh, he⟩ | ⟨a, u, -, -, rfl⟩ := step_effect h
  · simp [hs] at ht
  · cases he with
    | ksched hc herr hph hkey => exact ⟨rest, hc ▸ hh, herr, hkey, rfl⟩
    | kpush b => simp [hs] at ht
    | crypt b hc herr hph => simp [hs] at hph
    | unchanged => simp [hs] at ht
    | fault | fin | rst => cases ht
  · cases ht

/-- However the pass ends, it ends in zeroisation. -/
theorem step_ready_to_idle {s t : State} (h : step s = .next t) (hs : s.ph = .ready) (ht : t.ph = .idle) :
    t.holdsNothing ∧ ∃ a rest, s.host = a :: rest ∧ (a = .command (encode .fin) ∨ a = .command (encode .rst) ∨
      a.isReset ∨ ∃ e, t = raise e (s.setHost rest)) := by
  obtain ⟨host, taken, rfl⟩ | ⟨c, rest, hh, he⟩ | ⟨a, u, hh, ha, rfl⟩ := step_effect h
  · simp [hs] at ht
  · cases he with
    | fault herr e => exact ⟨raise_holdsNothing e _, _, rest, hh, .inr (.inr (.inr ⟨e, rfl⟩))⟩
    | fin hc => exact ⟨finBody_holdsNothing _, _, rest, hh, .inl (congrArg _ hc)⟩
    | rst hc => exact ⟨softReset_holdsNothing _, _, rest, hh, .inr (.inl (congrArg _ hc))⟩
    | ksched => cases ht
    | unchanged | kpush b | crypt b => simp [hs] at ht
  · exact ⟨hardwareReset_holdsNothing u, a, u.host, hh, .inr (.inr (.inl ha))⟩

theorem status_setWidth_one (s : State) : s.status.setWidth 1 = s.ph.bit := by
  refine BitVec.eq_of_getLsbD_eq fun n hn => ?_
  obtain rfl : n = 0 := by omega
  rw [BitVec.getLsbD_setWidth, status_bit_ph]
  cases s.ph <;> decide

/-- Settles O12: the effects that change PH. -/
theorem phaseChangesOnlyByItsCommands : Obligations.PhaseChangesOnlyByItsCommands := by
  refine ⟨rfl, rfl, status_setWidth_one, fun s t h hs ht => ?_, fun s t h hs ht => ?_⟩
  · obtain ⟨rest, hh, herr, hkey, rfl⟩ := step_idle_to_ready h hs ht
    exact ⟨rest, hh, herr, hkey, kschedLoop_err _⟩
  · obtain ⟨-, a, rest, hh, hact⟩ := step_ready_to_idle h hs ht
    exact ⟨a, rest, hh, by simpa only [HostAction.isReset, or_assoc] using hact⟩

/-- Settles O43: a pass ends in zeroisation, and by R39 (b) a faulted engine holds nothing. -/
theorem nothingOfACallSurvivesIt : Obligations.NothingOfACallSurvivesIt := by
  rintro s t hinv h (⟨hs, ht⟩ | ⟨-, hfault⟩)
  · obtain ⟨hnothing, -⟩ := step_ready_to_idle h hs ht
    exact hnothing
  · exact (hinv.after_step h).holdsNothing_of_faulted hfault

/-! ## `OUT` -/

/-- Settles O13: of the effects of a word only that of CRYPT appends. -/
theorem outGrowsOnlyByOneByteOfCrypt : Obligations.OutGrowsOnlyByOneByteOfCrypt := by
  refine ⟨rfl, fun s t h => ?_⟩
  obtain ⟨host, taken, rfl⟩ | ⟨c, rest, hh, he⟩ | ⟨a, u, hh, ha, rfl⟩ := step_effect h
  · exact .inl rfl
  · obtain hout | ⟨b, rfl, -, -, rfl⟩ := he.out
    · exact .inl hout
    · exact .inr (.inl ⟨b, rest, hh, cryptBody_out_eq b _⟩)
  · exact .inr (.inr ⟨rfl, a, u.host, hh, ha⟩)

/-! ## ERR -/

/-- A step changes ERR by fault entry, by RST, or by hardware reset. -/
theorem step_err {s t : State} (h : step s = .next t) : t.err = s.err ∨
    (s.err = 0 ∧ ∃ c rest e, s.host = .command c :: rest ∧ t = raise e (s.setHost rest)) ∨
    ∃ a u, s.host = a :: u.host ∧ (a = .command (encode .rst) ∨ a.isReset) ∧ (t = softReset u ∨ t = hardwareReset u) := by
  obtain ⟨host, taken, rfl⟩ | ⟨c, rest, hh, he⟩ | ⟨a, u, hh, ha, rfl⟩ := step_effect h
  · exact .inl rfl
  · obtain hsame | ⟨herr, e, rfl⟩ | ⟨rfl, rfl⟩ := he.err
    · exact .inl hsame
    · exact .inr (.inl ⟨herr, c, rest, e, hh, rfl⟩)
    · exact .inr (.inr ⟨_, _, hh, .inl rfl, .inl rfl⟩)
  · exact .inr (.inr ⟨a, u, hh, .inr ha, .inr rfl⟩)

theorem flag_congr {s t : State} (h : t.err = s.err) (e : EngineFault) : t.flag e = s.flag e := by
  rw [State.flag, State.flag, h]

theorem err_ne_zero_of_flag {s : State} {e : EngineFault} (h : s.flag e = true) : s.err ≠ 0 := fun h0 => by
  rw [flag_of_not_faulted h0] at h
  cases h

theorem eq_of_flags {s : State} (h : s.atMostOneFlag) {e e' : EngineFault} (he : s.flag e = true) (he' : s.flag e' = true) :
    e = e' := by
  have hone : ∀ v : BitVec 3, v = 0 ∨ v = 1 ∨ v = 2 ∨ v = 4 → v.getLsbD e.code = true → v.getLsbD e'.code = true → e = e' := by
    cases e <;> cases e' <;> decide
  exact hone s.err h he he'

/-- Both resets leave the reset state, but for `OUT` and the boundary. -/
theorem eq_reset_of_softReset_or_hardwareReset {t u : State} (h : t = softReset u ∨ t = hardwareReset u) :
    t = { State.reset with out := t.out, taken := t.taken, past := t.past, host := u.host, free := t.free } := by
  obtain rfl | rfl := h
  · rfl
  · rfl

/-- Settles O14: by `step_err` for single steps, and by `State.Inv` for runs. -/
theorem flagsAreSetByFaultEntryAndClearedByReset : Obligations.FlagsAreSetByFaultEntryAndClearedByReset := by
  refine ⟨fun s t e h hs ht => ?_, fun s t e h hs ht => ?_, fun n s t e e' hinv h => eq_of_flags (hinv.after_run h).oneFlag⟩
  · obtain hsame | ⟨-, c, rest, e', hh, rfl⟩ | ⟨a, u, -, -, hreset⟩ := step_err h
    · rw [flag_congr hsame, hs] at ht; cases ht
    · have hee : e = e' := by simpa [flag_congr (State.setHost_err s rest), hs] using ht
      exact ⟨c, rest, hh, hee ▸ rfl⟩
    · rw [eq_reset_of_softReset_or_hardwareReset hreset] at ht
      exact absurd rfl (err_ne_zero_of_flag ht)
  · obtain hsame | ⟨herr, -⟩ | ⟨a, u, hh, ha, hreset⟩ := step_err h
    · rw [flag_congr hsame, hs] at ht; cases ht
    · exact absurd herr (err_ne_zero_of_flag hs)
    · exact ⟨a, u.host, hh, (congrArg State.err (eq_reset_of_softReset_or_hardwareReset hreset) :), ha⟩

/-- Settles O24: by `step_err`, as fault entry leaves a flag. -/
theorem onlyRstAndHardwareResetEndAFault : Obligations.OnlyRstAndHardwareResetEndAFault := by
  intro s t hs h ht
  obtain hsame | ⟨herr, -⟩ | ⟨a, u, hh, ha, hreset⟩ := step_err h
  · exact absurd (hsame.symm.trans ht) hs
  · exact absurd herr hs
  · exact ⟨a, u.host, hh, ha, eq_reset_of_softReset_or_hardwareReset hreset⟩

/-! ## The cursors -/

theorem x_eq_zero {s : State} (h : s.i = 0 ∧ s.j = 0 ∧ s.k = 0 ∧ s.z = 0) (n : Fin 4) : s.x n = 0 := by
  obtain ⟨hi, hj, hk, hz⟩ := h
  match n with
  | 0 => exact hi
  | 1 => exact hj
  | 2 => exact hk
  | 3 => exact hz

/-- In IDLE the cursors are 0, and KSCHED starts the pass with cursors 0. -/
theorem ready_of_cursor_change {s t : State} (hinv : s.Inv) (h : step s = .next t) {n : Fin 4} (hn : t.x n ≠ s.x n) :
    s.ph = .ready := by
  cases hs : s.ph with
  | ready => rfl
  | idle =>
    obtain ⟨-, hcursors⟩ := hinv.idle hs
    have ht : t.x n = 0 := by
      cases htp : t.ph with
      | idle =>
        obtain ⟨-, hcursors'⟩ := (hinv.after_step h).idle htp
        exact x_eq_zero hcursors' n
      | ready =>
        obtain ⟨rest, -, -, -, rfl⟩ := step_idle_to_ready h hs htp
        exact x_eq_zero ⟨rfl, rfl, rfl, rfl⟩ n
    exact absurd (ht.trans (x_eq_zero hcursors n).symm) hn

/-- Settles O41: the effects that write a cursor. -/
theorem cursorsAreNeverResetBetweenBytes : Obligations.CursorsAreNeverResetBetweenBytes := by
  rintro s t hinv h ⟨n, hn⟩
  have hs : s.ph = .ready := ready_of_cursor_change hinv h hn
  obtain ⟨host, taken, rfl⟩ | ⟨c, rest, hh, he⟩ | ⟨a, u, hh, ha, rfl⟩ := step_effect h
  · exact absurd rfl hn
  · refine ⟨hs, _, rest, hh, ?_⟩
    cases he with
    | crypt b hc => exact .inl ⟨b, congrArg _ hc⟩
    | fin hc => exact .inr (.inl (congrArg _ hc))
    | rst hc => exact .inr (.inr (.inl (congrArg _ hc)))
    | fault herr e => exact .inr (.inr (.inr (.inr (.inr ⟨e, rfl⟩))))
    | unchanged => exact absurd rfl hn
    | kpush b hph | ksched hc herr hph => simp [hs] at hph
  · refine ⟨hs, a, u.host, hh, ?_⟩
    obtain hreset | hreset := ha
    · exact .inr (.inr (.inr (.inl hreset)))
    · exact .inr (.inr (.inr (.inr (.inl hreset))))

/-! ## What the host sees -/

/-- Two engines look alike to the host. -/
structure State.LooksLike (s t : State) : Prop where
  ph : s.ph = t.ph
  err : s.err = t.err
  out : s.out = t.out
  taken : s.taken = t.taken

/-- STATUS shows PH and ERR. -/
theorem ph_err_eq_of_status_eq {s t : State} (h : s.status = t.status) : s.ph = t.ph ∧ s.err = t.err := by
  constructor
  · have hph : (s.ph == .ready) = (t.ph == .ready) := by rw [← status_bit_ph, ← status_bit_ph, h]
    cases hs : s.ph <;> cases ht : t.ph <;> simp [hs, ht] at hph ⊢
  · exact BitVec.eq_of_getLsbD_eq fun n _ => by rw [← status_bit_err, ← status_bit_err, h]

theorem looksLike_of_visible_eq {s t : State} (h : s.visible = t.visible) : s.LooksLike t := by
  obtain ⟨hstatus, -, hout, htaken⟩ : s.status = t.status ∧ s.faultLine = t.faultLine ∧ s.out = t.out ∧ s.taken = t.taken := by
    simpa [State.visible] using h
  obtain ⟨hph, herr⟩ := ph_err_eq_of_status_eq hstatus
  exact ⟨hph, herr, hout, htaken⟩

namespace State.LooksLike

variable {s t : State}

theorem after_raise (h : s.LooksLike t) (e : EngineFault) : (raise e s).LooksLike (raise e t) where
  ph := rfl
  err := by rw [raise_err, raise_err, h.err]
  out := h.out
  taken := h.taken

theorem after_kpushBody (h : s.LooksLike t) (b : Byte) : (kpushBody b s).LooksLike (kpushBody b t) := by
  rw [kpushBody_eq b s, kpushBody_eq b t]
  exact { h with }

theorem after_kschedBody (h : s.LooksLike t) (hkey : s.klen = 0 ↔ t.klen = 0) : (kschedBody s).LooksLike (kschedBody t) := by
  by_cases hs : s.klen = 0
  · rw [kschedBody_of_empty hs, kschedBody_of_empty (hkey.1 hs)]
    exact h.after_raise _
  · rw [kschedBody_of_key hs, kschedBody_of_key (mt hkey.2 hs)]
    exact {
      ph := (kschedFinish_ph _).trans (kschedFinish_ph _).symm
      err := (kschedLoop_err s).trans (h.err.trans (kschedLoop_err t).symm)
      out := (kschedLoop_out s).trans (h.out.trans (kschedLoop_out t).symm)
      taken := (kschedLoop_taken s).trans (h.taken.trans (kschedLoop_taken t).symm) }

/-- What the host sees of a body but CRYPT depends on the key only in whether there is one. -/
theorem after_bodyOf (h : s.LooksLike t) (hkey : s.klen = 0 ↔ t.klen = 0) {i : Instr} (hi : ∀ b, i ≠ .crypt b) :
    (bodyOf i s).LooksLike (bodyOf i t) := by
  cases i with
  | nop => exact h
  | kpush b => exact h.after_kpushBody b
  | ksched => exact h.after_kschedBody hkey
  | crypt b => exact absurd rfl (hi b)
  | fin => exact { h with ph := rfl }
  | rst => exact { h with ph := rfl, err := rfl }

/-- Two engines that look alike take the same way through the dispatch (30_encoding.md R75). -/
theorem after_dispatchInOrder (h : s.LooksLike t) (hkey : s.klen = 0 ↔ t.klen = 0) {c : Word}
    (hc : ∀ b, ¬ (c = encode (.crypt b) ∧ s.err = 0 ∧ s.ph = .ready)) :
    (dispatchInOrder c s).LooksLike (dispatchInOrder c t) := by
  unfold dispatchInOrder
  rw [← h.err, ← h.ph]
  split_ifs with hrst herr
  · exact h.after_bodyOf hkey (by simp)
  · exact h
  · cases hd : decode c with
    | error e => exact h.after_raise _
    | ok i =>
      dsimp only
      split_ifs with hl
      · refine h.after_bodyOf hkey fun b hb => hc b ?_
        subst hb
        exact ⟨(encode_of_decode hd).symm, not_not.1 herr, by simpa [legalIn_iff] using hl⟩
      · exact h.after_raise _

theorem after_cryptBody (h : s.LooksLike t) (b : Byte) : (cryptBody b s).status = (cryptBody b t).status ∧
    (cryptBody b s).faultLine = (cryptBody b t).faultLine ∧
    (cryptBody b s).taken = (cryptBody b t).taken :=
  ⟨status_congr h.ph h.err, faultLine_congr h.err, h.taken⟩

end State.LooksLike

/-- Settles O15: a CRYPT that runs emits a byte met with the keystream; after any other word the engines look alike. -/
theorem theHostSeesNothingOfTheSecretState : Obligations.TheHostSeesNothingOfTheSecretState := by
  intro c s s' t t' hvisible hkey hs ht
  have h : s.LooksLike t := looksLike_of_visible_eq hvisible
  by_cases hcrypt : ∃ b, c = encode (.crypt b) ∧ s.err = 0 ∧ s.ph = .ready
  · obtain ⟨b, rfl, herr, hph⟩ := hcrypt
    rw [accept_encode, exec_crypt_of_ready b herr hph] at hs
    rw [accept_encode, exec_crypt_of_ready b (h.err ▸ herr) (h.ph ▸ hph)] at ht
    obtain rfl := Host.Outcome.next.inj hs
    obtain rfl := Host.Outcome.next.inj ht
    obtain ⟨hstatus, hfault, htaken⟩ := h.after_cryptBody b
    exact ⟨hstatus, hfault, htaken, .inr ⟨b, rfl, cryptBody_out_eq b s, cryptBody_out_eq b t⟩⟩
  · rw [accept_eq_dispatchInOrder] at hs ht
    obtain rfl := Host.Outcome.next.inj hs
    obtain rfl := Host.Outcome.next.inj ht
    obtain ⟨hph, herr, hout, htaken⟩ := h.after_dispatchInOrder hkey (c := c) fun b hb => hcrypt ⟨b, hb⟩
    exact ⟨status_congr hph herr, faultLine_congr herr, htaken, .inl hout⟩

end Sys2Proof.Machine
end

section
/-! SUPPORT. The spaces, the iteration of the key schedule, the key buffer after the pushes of a key, and keys of equal
expansion. 00_scope.md R9, 20_memory.md R51, 40_key_schedule.md R90 to R98. -/

namespace Sys2Proof.Machine

/-! ## The spaces -/

namespace Memory

theorem write_write_read {m : Memory} (hm : m.wf) (a v : Byte) : (m.write a v).write a (m.read a) = m :=
  ext (wf_write (wf_write hm _ _) _ _) hm fun b => by
    rw [read_write (wf_write hm _ _)]
    split_ifs with hb
    · rw [hb]
    · exact read_write_other hm v hb

theorem swap_swap {m : Memory} (hm : m.wf) (a b : Byte) : (m.swap a b).swap a b = m :=
  ext (wf_swap (wf_swap hm _ _) _ _) hm fun c => by
    rw [read_swap_eq_comp (wf_swap hm a b), read_swap_eq_comp hm]
    simp

end Memory

/-- Settles O44: a read after a write or a swap, and equal spaces from equal reads. -/
theorem spacesReadBackWhatWasWritten : Obligations.SpacesReadBackWhatWasWritten := by
  refine ⟨fun m a v b hm => ?_, fun m a b c hm => ?_⟩
  · exact ⟨Memory.wf_write hm a v, Memory.read_write_same hm a v, Memory.read_write_other hm v, Memory.write_write_read hm a v⟩
  · exact ⟨Memory.wf_swap hm a b, Memory.read_swap_left hm a b, Memory.read_swap_right hm a b, Memory.read_swap_other hm,
      Memory.swap_swap hm a b⟩

/-- Settles O32: the accumulator adds modulo 256, and the rest is a swap. -/
theorem ksaIterationSwapsTwoEntries : Obligations.KsaIterationSwapsTwoEntries := by
  intro S j i kb hS S' j' h
  obtain ⟨rfl, rfl⟩ : S.swap i (j + S.read i + kb) = S' ∧ j + S.read i + kb = j' := Prod.mk.inj h
  refine ⟨?_, Memory.read_swap_left hS _ _, Memory.read_swap_right hS _ _, fun a => Memory.read_swap_other hS, fun hi => ?_,
    Memory.wf_swap hS _ _⟩
  · rw [BitVec.toNat_add, BitVec.toNat_add, Nat.mod_add_mod]
  · rw [← hi, Memory.swap_self hS]

/-! ## The pushes of a key -/

theorem read_K_of_lt_klen {s : State} {n : Byte} (h : n.toNat < s.klen.toNat) :
    s.K.read n = (bufferedKey s).getD n.toNat 0 := by
  simp [bufferedKey, Memory.read, List.getD, h]

/-- The pushes write `K` and KLEN only. -/
theorem pushKey_eq (key : List Byte) (s : State) :
    pushKey key s = { s with K := (pushKey key s).K, klen := (pushKey key s).klen } := by
  have hframe : ((pushKey key s).setKeys Memory.zero).setKlen 0 = (s.setKeys Memory.zero).setKlen 0 :=
    foldl_keeps (fun t => (t.setKeys Memory.zero).setKlen 0) (fun t b => by rw [kpushBody_eq]; rfl) key s
  exact congrArg (fun t => (t.setKeys (pushKey key s).K).setKlen (pushKey key s).klen) hframe

theorem toNat_kpushBody_klen_le (b : Byte) (s : State) : (kpushBody b s).klen.toNat ≤ s.klen.toNat + 1 := by
  by_cases hroom : s.klen.toNat < 256
  · rw [kpushBody_of_room b hroom, State.setKlen_klen, toNat_klen_add_one hroom]
  · rw [kpushBody_of_full b hroom]; omega

theorem read_pushKey_of_ge (key : List Byte) {s : State} (hwf : s.K.wf) {n : Byte}
    (hn : s.klen.toNat + key.length ≤ n.toNat) : (pushKey key s).K.read n = s.K.read n := by
  induction key generalizing s with
  | nil => rfl
  | cons b rest ih =>
    rw [List.length_cons] at hn
    have hklen := toNat_kpushBody_klen_le b s
    calc (pushKey rest (kpushBody b s)).K.read n
        = (kpushBody b s).K.read n := ih (wf_kpushBody_K b hwf) (by omega)
      _ = s.K.read n := read_kpushBody_of_ge b hwf (by omega)

/-- Settles O31: the buffer after the pushes, read by index. -/
theorem pushedKeyBytesLandInOrderUpToTheFirst256 : Obligations.PushedKeyBytesLandInOrderUpToTheFirst256 := by
  refine ⟨fun b s herr hph hfull => exec_kpush_of_full b herr hph (by simp [hfull]), fun key s herr hph hempty hwf => ?_,
    fun key hlen => ksa_take (List.ne_nil_of_length_pos (by omega))⟩
  have hbuffer : bufferedKey (pushKey key s) = key.take 256 := by
    rw [bufferedKey_pushKey key hwf (by simp [hempty]), bufferedKey_of_empty hempty, List.nil_append]
  have hklen : (pushKey key s).klen.toNat = min key.length 256 := by
    rw [← bufferedKey_length, hbuffer, List.length_take, Nat.min_comm]
  have hwords : acceptAll (key.map fun b => encode (.kpush b)) s = .next (pushKey key s) := by
    rw [← acceptAll_kpushes key herr hph, List.map_map]
    rfl
  refine ⟨_, hwords, hklen, fun n hn => ?_, fun n hn => ?_, hbuffer, pushKey_eq key s⟩
  · have hn256 := n.isLt
    rw [read_K_of_lt_klen (by omega), hbuffer]
    simp [List.getD, hn256]
  · exact read_pushKey_of_ge key hwf (by simpa [hempty] using hn)

/-! ## Keys of equal expansion -/

theorem transform_congr {key key' : List Byte} (hkey : key ≠ []) (hkey' : key' ≠ []) (h : ksa key = ksa key')
    (message : List Byte) : transform message key = transform message key' := by
  rw [transform_of_key hkey, transform_of_key hkey', Cipher.start, Cipher.start, h]

/-- A key repeated reads the same at every index. -/
theorem getD_flatten_replicate (key : List Byte) {n m : Nat} (hm : m < n * key.length) :
    (List.replicate n key).flatten.getD m 0 = key.getD (m % key.length) 0 := by
  induction n generalizing m with
  | zero => omega
  | succ n ih =>
    rw [List.replicate_succ, List.flatten_cons]
    by_cases hlt : m < key.length
    · rw [List.getD_append _ _ _ _ hlt, Nat.mod_eq_of_lt hlt]
    · rw [Nat.add_one_mul] at hm
      rw [List.getD_append_right _ _ _ _ (by omega), ih (by omega), ← Nat.mod_eq_sub_mod (by omega)]

theorem flatten_replicate_ne_nil {key : List Byte} {n : Nat} (hkey : key ≠ []) (hn : n ≠ 0) :
    (List.replicate n key).flatten ≠ [] := by
  simp [hkey, hn]

theorem keyExpansion_flatten_replicate {key : List Byte} {n : Nat} (hkey : key ≠ []) (hn : n ≠ 0) (i : Byte) :
    keyExpansion (List.replicate n key).flatten i = keyExpansion key i := by
  have hlen : (List.replicate n key).flatten.length = n * key.length := by simp
  have hpos : 0 < n * key.length := Nat.mul_pos (Nat.pos_of_ne_zero hn) (List.length_pos_iff.2 hkey)
  rw [keyExpansion_of_key (flatten_replicate_ne_nil hkey hn), keyExpansion_of_key hkey, hlen,
    getD_flatten_replicate key (Nat.mod_lt _ hpos), Nat.mod_mul_left_mod]

/-- Settles O36: the schedule sees the expansion only, and both cases are keys of one expansion. -/
theorem keysOfEqualExpansionAreEquivalent : Obligations.KeysOfEqualExpansionAreEquivalent := by
  refine ⟨fun key key' hkey hkey' h => ?_, fun key n hkey hn => ?_, fun key rest hlen => ?_⟩
  · exact ⟨ksa_of_expansion h, transform_congr hkey hkey' (ksa_of_expansion h)⟩
  · have h := ksa_of_expansion (keyExpansion_flatten_replicate hkey hn)
    exact ⟨h, transform_congr (flatten_replicate_ne_nil hkey hn) hkey h⟩
  · have hkey : key ≠ [] := List.ne_nil_of_length_pos (by omega)
    have hlong : key ++ rest ≠ [] := List.append_ne_nil_of_left_ne_nil hkey rest
    have hcut : (key ++ rest).take 256 = key := by rw [← hlen, List.take_left]
    exact transform_congr hlong hkey (by rw [← ksa_take hlong, hcut])

end Sys2Proof.Machine
end

section
/-! SUPPORT. The keystream over a message: the pass byte by byte, and what it gives to calls. 41_keystream.md R111 to R117,
43_transform.md R140, R141. -/

namespace Sys2Proof.Machine

/-- Settles O38: CRYPT is the pure step, and all it does to `S` is a swap. -/
theorem cryptKeepsThePermutation : Obligations.CryptKeepsThePermutation := by
  refine fun b s herr hph hwf => ⟨_, exec_crypt_of_ready b herr hph, cryptBody_cipher b s, ?_⟩
  rw [cryptBody_S]
  exact ⟨Memory.wf_swap hwf _ _, fun hperm => Memory.isPermutation_swap hwf hperm _ _,
    fun heq => by rw [heq, Memory.swap_self hwf]⟩

/-! ## The pass -/

namespace Cipher

/-- The keystream bytes of the next `n` steps. -/
def keystream (n : Nat) (c : Cipher) : List Byte :=
  (List.range n).map fun m => (steps (m + 1) c).z

@[simp] theorem length_keystream (n : Nat) (c : Cipher) : (keystream n c).length = n := by
  simp [keystream]

theorem keystream_succ (n : Nat) (c : Cipher) : keystream (n + 1) c = (ksgStep c).z :: keystream n (ksgStep c) := by
  rw [keystream, List.range_succ_eq_map, List.map_cons, List.map_map]
  rfl

/-- The message meets the keystream byte by byte (41_keystream.md R117). -/
theorem apply_eq_zipWith (message : List Byte) (c : Cipher) :
    apply message c = List.zipWith (fun b z => b ^^^ z) message (keystream message.length c) := by
  induction message generalizing c with
  | nil => rfl
  | cons b rest ih => rw [apply_cons, List.length_cons, keystream_succ, List.zipWith_cons_cons, ih]

theorem getD_apply {message : List Byte} {n : Nat} (h : n < message.length) (c : Cipher) :
    (apply message c).getD n 0 = message.getD n 0 ^^^ (steps (n + 1) c).z := by
  simp [apply_eq_zipWith, keystream, List.getD, h]

theorem apply_append (message rest : List Byte) (c : Cipher) :
    apply (message ++ rest) c = apply message c ++ apply rest (steps message.length c) := by
  induction message generalizing c with
  | nil => rfl
  | cons b tail ih => rw [List.cons_append, apply_cons, apply_cons, ih]; rfl

theorem toNat_steps_i (n : Nat) (c : Cipher) : (steps n c).i.toNat = (c.i.toNat + n) % 256 := by
  induction n generalizing c with
  | zero => exact (Nat.mod_eq_of_lt c.i.isLt).symm
  | succ n ih =>
    have hstep : (ksgStep c).i.toNat = (c.i.toNat + 1) % 256 := BitVec.toNat_add c.i 1
    rw [steps, ih, hstep, Nat.mod_add_mod, Nat.add_assoc, Nat.add_comm 1]

end Cipher

/-! ## A message on the machine -/

theorem cryptMessage_cipher (message : List Byte) (s : State) :
    (cryptMessage message s).cipher = Cipher.steps message.length s.cipher := by
  induction message generalizing s with
  | nil => rfl
  | cons b rest ih => exact ih (cryptBody b s)

theorem cryptMessage_out (message : List Byte) (s : State) :
    (cryptMessage message s).out = s.out ++ Cipher.apply message s.cipher :=
  (congrArg State.out (finBody_cryptMessage message s) :)

theorem eq_cryptMessage {message : List Byte} {s t : State} (herr : s.err = 0) (hph : s.ph = .ready)
    (h : acceptAll (message.map fun b => encode (.crypt b)) s = .next t) : t = cryptMessage message s := by
  have hrun := acceptAll_crypts message herr hph
  rw [List.map_map] at hrun
  exact Host.Outcome.next.inj (h.symm.trans hrun)

/-- Settles O39: the pass takes as many steps as there are bytes, and both messages meet its keystream. -/
theorem theKeystreamDoesNotDependOnTheMessage : Obligations.TheKeystreamDoesNotDependOnTheMessage := by
  intro m m' s t t' herr hph hlen ht ht'
  obtain rfl := eq_cryptMessage herr hph ht
  obtain rfl := eq_cryptMessage herr hph ht'
  refine ⟨by rw [cryptMessage_cipher, cryptMessage_cipher, hlen], Cipher.keystream m.length s.cipher,
    Cipher.length_keystream _ _, ?_, ?_⟩
  · rw [cryptMessage_out, Cipher.apply_eq_zipWith]
  · rw [cryptMessage_out, Cipher.apply_eq_zipWith, hlen]

/-- Settles O40: each step adds 1 to `i`. -/
theorem cursorICountsTheBytesModulo256 : Obligations.CursorICountsTheBytesModulo256 := by
  intro m s t herr hph ht
  obtain rfl := eq_cryptMessage herr hph ht
  have hi : (cryptMessage m s).i = (Cipher.steps m.length s.cipher).i := congrArg Cipher.i (cryptMessage_cipher m s)
  refine ⟨?_, (cryptMessage_ph m s).trans hph, (cryptMessage_err m s).trans herr, ?_⟩
  · rw [hi, Cipher.toNat_steps_i]; rfl
  · rw [cryptMessage_out, List.length_append, Cipher.length_apply]

/-! ## Calls -/

/-- Settles O45: a call appends the message met with the keystream of the key. -/
theorem aCallComputesTransform : Obligations.ACallComputesTransform := by
  intro message key s hkey herr hph hk hS hK
  exact ⟨_, _, transform_of_key hkey message, acceptAll_callWords_at_rest hkey message herr hph hk hS hK, rfl,
    fun n hn => Cipher.getD_apply hn _, rfl⟩

/-- Settles O50: the pass over a message in two parts, and the pass at one byte. -/
theorem outputsOfAPrefixAreThePrefix : Obligations.OutputsOfAPrefixAreThePrefix := by
  refine ⟨fun key m rest output h => ?_, fun key m m' output output' n h h' hn hn' hbyte => ?_⟩
  · obtain ⟨hkey, rfl⟩ := (transform_eq_ok_iff _ key output).1 h
    rw [transform_of_key hkey, Cipher.apply_append, List.take_left' (Cipher.length_apply m _)]
  · obtain ⟨-, rfl⟩ := (transform_eq_ok_iff m key output).1 h
    obtain ⟨-, rfl⟩ := (transform_eq_ok_iff m' key output').1 h'
    rw [Cipher.getD_apply hn, Cipher.getD_apply hn', hbyte]

theorem acceptAll_nop_cons (ws : List Word) (s : State) : acceptAll (encode .nop :: ws) s = acceptAll ws s :=
  acceptAll_cons ((accept_encode .nop s).trans (exec_nop s)) ws

/-- Settles O52: by induction on the words, each NOP changing nothing. -/
theorem interleavedNopsChangeNothing : Obligations.InterleavedNopsChangeNothing := by
  intro ws
  induction ws with
  | nil => exact fun s => rfl
  | cons c rest ih =>
    intro s
    by_cases hc : c = encode .nop
    · rw [List.filter_cons_of_neg (by simp [hc]), hc, acceptAll_nop_cons, ih]
    · obtain ⟨t, ht⟩ := accept_next c s
      rw [List.filter_cons_of_pos (by simp [hc]), acceptAll_cons ht, acceptAll_cons ht, ih]

end Sys2Proof.Machine
end

section
/-! SUPPORT. Steps at the boundary, and platforms of engines. 20_memory.md R50 to R59, 60_exceptions.md R181, 70_reset_and_hazards.md
R190, R191. -/

namespace Sys2Proof.Machine

/-! ## Words on the command port -/

theorem tableWord_toNat (c : Word) : tableWord 16 c.toNat = c := by
  rw [tableWord, Nat.mod_eq_of_lt c.isLt, BitVec.ofNat_toNat, BitVec.setWidth_eq]

theorem step_presentFirst (c : Word) (s : State) : step (presentFirst c s) = accept c s :=
  step_of_act (s := presentFirst c s) rfl

/-- Settles O17: a step accepts the word presented, and a word that decodes is its command. -/
theorem stepRunsTheDecodedCommand : Obligations.StepRunsTheDecodedCommand := by
  refine ⟨fun s c rest i hh hd => ⟨wellFormed_eq_true i, ?_⟩, fun s i => ?_⟩
  · exact (step_of_act hh).trans (accept_of_decode hd _)
  · rw [State.withFetchWord, tableWord_toNat, step_presentFirst, accept_encode]

theorem step_next (s : State) : ∃ t, step s = .next t := by
  cases hh : s.host with
  | nil => exact ⟨s, step_of_waiting hh⟩
  | cons a rest =>
    rw [step_of_act hh]
    cases a with
    | command c => exact accept_next c _
    | reset | resetDuring c | takeByte => exact ⟨_, rfl⟩

theorem run_succ {s t : State} (h : step s = .next t) (n : Nat) :
    Host.Core.run core (n + 1) s = Host.Core.run core n t := by
  simp [Host.Core.run, core, h]

theorem run_next (n : Nat) (s : State) : ∃ t, Host.Core.run core n s = .next t := by
  induction n generalizing s with
  | zero => exact ⟨s, rfl⟩
  | succ n ih =>
    obtain ⟨t, ht⟩ := step_next s
    rw [run_succ ht]
    exact ih t

/-- Settles O27: each act of the host has a next state, and so by induction has each run. -/
theorem everyStepHasANextState : Obligations.EveryStepHasANextState :=
  ⟨step_next, exec_next, run_next⟩

/-! ## Hardware reset -/

/-- Settles O53: the reset state, with the old history closed. -/
theorem hardwareResetBeginsANewHistory : Obligations.HardwareResetBeginsANewHistory := by
  refine ⟨fun s rest hh => ?_, fun s => step_of_waiting⟩
  obtain ⟨n, hpast, hlow, hhigh⟩ := hardwareReset_past (s.setHost rest)
  exact ⟨hardwareReset (s.setHost rest), n, step_of_act hh, hardwareReset_holdsNothing _, rfl, rfl,
    status_of_idle (hardwareReset_ph _) (hardwareReset_err _), faultLine_of_no_flag (hardwareReset_err _), rfl, rfl,
    hpast, hlow, hhigh⟩

/-- `OUT` at the cut-off is as it was, or has the byte of a CRYPT that would have run (70_reset_and_hazards.md R191). -/
theorem outAtCutOff_cases (c : Word) (s : State) : outAtCutOff c s = s.out ∨
    ∃ b, c = encode (.crypt b) ∧ s.ph = .ready ∧ s.err = 0 ∧ outAtCutOff c s = s.out ++ [b ^^^ (ksgStep s.cipher).z] := by
  obtain ⟨t, ht⟩ := accept_next c s
  have hcut : outAtCutOff c s = if Config.abandonedByteEmitted s.free then t.out else s.out := by rw [outAtCutOff, ht]
  rw [hcut]
  split_ifs
  · obtain hout | ⟨b, hc, hph, herr, rfl⟩ := (acceptEffect_of_accept ht).out
    · exact .inl hout
    · exact .inr ⟨b, hc, hph, herr, cryptBody_out b s⟩
  · exact .inl rfl

/-- Settles O54: the closed history is `OUT` at the cut-off. -/
theorem resetDuringACommandAbandonsIt : Obligations.ResetDuringACommandAbandonsIt := by
  intro s c rest hh
  obtain ⟨n, hpast, hlow, hhigh⟩ := hardwareReset_past
    (((s.setHost rest).setOut (outAtCutOff c (s.setHost rest))).setFree (s.free + 1))
  exact ⟨resetDuringCommand c (s.setHost rest), outAtCutOff c (s.setHost rest), n, step_of_act hh, rfl, hpast, hlow, hhigh,
    outAtCutOff_cases c (s.setHost rest)⟩

/-! ## The output port -/

theorem takeFromPort_of_empty {s : State} (h : s.onPort = []) : takeFromPort s = s := by
  simp [takeFromPort, h]

theorem takeFromPort_of_byte {s : State} {b : Byte} {others : List Byte} (h : s.onPort = b :: others) :
    takeFromPort s = s.setTaken (s.taken + 1) := by
  simp [takeFromPort, h]

/-- The byte taken is the oldest on the port (20_memory.md R59). -/
theorem onPort_takeFromPort {s : State} {b : Byte} {others : List Byte} (h : s.onPort = b :: others) :
    (takeFromPort s).onPort = others := by
  rw [takeFromPort_of_byte h, State.onPort, State.setTaken_out, State.setTaken_taken, ← List.drop_drop, ← State.onPort, h,
    List.drop_one, List.tail_cons]

/-- Settles O55: only `taken` moves, past the oldest byte on the port. -/
theorem takingAByteConsumesItFromThePortOnly : Obligations.TakingAByteConsumesItFromThePortOnly := by
  intro s rest hh
  refine ⟨takeFromPort (s.setHost rest), step_of_act hh, takeFromPort_frame _, fun b others hport => ?_, fun hport => ?_⟩
  · exact onPort_takeFromPort (s := s.setHost rest) hport
  · exact (congrArg State.taken (takeFromPort_of_empty (s := s.setHost rest) hport) :)

/-! ## Platforms -/

namespace Platform

variable {n : Nat}

/-- The platform with the state of one engine replaced. -/
def withEngine (p : Platform n) (e : Fin n) (s : State) : Platform n :=
  { engines := p.engines.set e s }

theorem engine_withEngine_same (p : Platform n) (e : Fin n) (s : State) : (p.withEngine e s).engine e = s := by
  simp [withEngine, engine]

theorem engine_withEngine_other (p : Platform n) {e e' : Fin n} (h : e' ≠ e) (s : State) :
    (p.withEngine e s).engine e' = p.engine e' := by
  have hne : (e : Nat) ≠ e' := fun h' => h (Fin.ext h'.symm)
  exact Vector.getElem_set_ne e.isLt e'.isLt hne

theorem withEngine_comm (p : Platform n) {e e' : Fin n} (h : e ≠ e') (s s' : State) :
    (p.withEngine e s).withEngine e' s' = (p.withEngine e' s').withEngine e s := by
  have hne : (e : Nat) ≠ e' := fun h' => h (Fin.ext h')
  exact congrArg Platform.mk (Vector.set_comm _ _ hne)

theorem engine_reset (n : Nat) (e : Fin n) : (reset n).engine e = State.reset :=
  Vector.getElem_replicate _

/-- An engine of a platform steps on its own state. -/
theorem step_eq {p : Platform n} {e : Fin n} {s : State} (h : Machine.step (p.engine e) = .next s) :
    step e p = .next (p.withEngine e s) := by
  rw [step, h]
  rfl

theorem exists_withEngine_of_step {p p' : Platform n} {e : Fin n} (h : step e p = .next p') :
    ∃ s, Machine.step (p.engine e) = .next s ∧ p' = p.withEngine e s := by
  obtain ⟨s, hs⟩ := step_next (p.engine e)
  rw [step_eq hs] at h
  exact ⟨s, hs, (Host.Outcome.next.inj h).symm⟩

theorem runSchedule_cons {p p' : Platform n} {e : Fin n} (h : step e p = .next p') (schedule : List (Fin n)) :
    runSchedule (e :: schedule) p = runSchedule schedule p' := by
  rw [runSchedule, h]

/-- Steps of two engines, in either order. -/
theorem runSchedule_pair {p : Platform n} {e e' : Fin n} (hne : e ≠ e') {s s' : State}
    (h : Machine.step (p.engine e) = .next s) (h' : Machine.step (p.engine e') = .next s') :
    runSchedule [e, e'] p = .next ((p.withEngine e s).withEngine e' s') := by
  have hsecond : Machine.step ((p.withEngine e s).engine e') = .next s' := by rwa [engine_withEngine_other p hne.symm]
  rw [runSchedule_cons (step_eq h), runSchedule_cons (step_eq hsecond)]
  rfl

/-- In a schedule an engine takes the steps that name it, as it would alone. -/
theorem runSchedule_eq_run_alone (schedule : List (Fin n)) (e : Fin n) (p : Platform n) :
    ∃ p', runSchedule schedule p = .next p' ∧
      Host.Core.run core (schedule.count e) (p.engine e) = .next (p'.engine e) := by
  induction schedule generalizing p with
  | nil => exact ⟨p, rfl, rfl⟩
  | cons f rest ih =>
    obtain ⟨s, hs⟩ := step_next (p.engine f)
    obtain ⟨p', hrest, hrun⟩ := ih (p.withEngine f s)
    refine ⟨p', (runSchedule_cons (step_eq hs) rest).trans hrest, ?_⟩
    by_cases hf : f = e
    · subst hf
      rw [List.count_cons_self, run_succ hs, ← hrun, engine_withEngine_same]
    · rw [List.count_cons_of_ne hf, ← hrun, engine_withEngine_other p (Ne.symm hf)]

end Platform

/-- Settles O56: a platform step replaces one engine's state by its own next state. -/
theorem enginesShareNoState : Obligations.EnginesShareNoState := by
  refine ⟨Platform.engine_reset, fun n e p p' h => ?_, fun n e e' p hne => ?_,
    fun n schedule e p => Platform.runSchedule_eq_run_alone schedule e p⟩
  · obtain ⟨s, hs, rfl⟩ := Platform.exists_withEngine_of_step h
    exact ⟨by rw [hs, Platform.engine_withEngine_same], fun e' he' => Platform.engine_withEngine_other p he' s⟩
  · obtain ⟨s, hs⟩ := step_next (p.engine e)
    obtain ⟨s', hs'⟩ := step_next (p.engine e')
    rw [Platform.runSchedule_pair hne hs hs', Platform.runSchedule_pair hne.symm hs' hs, Platform.withEngine_comm p hne]

end Sys2Proof.Machine
end

section
/-! SUPPORT. Reading the lines of a listing, token by token. `lexRest` gives the reader of a line one equation per token.
30_encoding.md R78, R79; the lexical details are the model's (log 11). -/

namespace Sys2Proof.Machine

/-- The tokens of a line of which `read` is read, newest first, and the characters are still to come. -/
def lexRest (read : List Token) (cs : List Char) : Option (List Token) :=
  (lexChars cs { mode := .between, tokens := read }).bind Lexer.finish

theorem readLine_eq (cs : List Char) : readLine cs = (lexRest [] cs).bind lineOfTokens := by
  have hlex : lexLine cs = lexRest [] cs := by
    unfold lexLine lexRest
    cases lexChars cs { mode := .between, tokens := [] } <;> rfl
  unfold readLine
  rw [hlex]
  cases lexRest [] cs <;> rfl

theorem readLine_of_lexRest {cs : List Char} {ts : List Token} (h : lexRest [] cs = some ts) :
    readLine cs = lineOfTokens ts := by
  rw [readLine_eq, h, Option.bind_some]

@[simp] theorem lexRest_nil (read : List Token) : lexRest read [] = some read.reverse := rfl

theorem lexChars_cons {c : Char} {l l' : Lexer} (h : lexStep l c = some l') (cs : List Char) :
    lexChars (c :: cs) l = lexChars cs l' := by
  rw [lexChars, h]

/-! ## One equation per token -/

@[simp] theorem lexRest_space (read : List Token) (cs : List Char) : lexRest read (' ' :: cs) = lexRest read cs := rfl

@[simp] theorem lexRest_comma (read : List Token) (cs : List Char) :
    lexRest read (',' :: cs) = lexRest (.comma :: read) cs := rfl

/-- A byte written as a character in single quotes. -/
theorem lexRest_quoted (read : List Token) {c : Char} (hlow : 32 ≤ c.toNat) (hhigh : c.toNat < 127) (cs : List Char) :
    lexRest read (singleQuote :: c :: singleQuote :: cs) = lexRest (.byte (BitVec.ofNat 8 c.toNat) :: read) cs := by
  have hc : lexStep { mode := .quoteOpen, tokens := read } c =
      some { mode := .quoteRead (BitVec.ofNat 8 c.toNat), tokens := read } := by
    simp [lexStep, printableByte, hlow, hhigh]
  have hopen : lexChars (singleQuote :: c :: singleQuote :: cs) { mode := .between, tokens := read } =
      lexChars (c :: singleQuote :: cs) { mode := .quoteOpen, tokens := read } := rfl
  rw [lexRest, hopen, lexChars_cons hc]
  rfl

theorem lexChars_text {text : List Char} (h : ∀ c ∈ text, c.toNat < 128 ∧ c ≠ doubleQuote) (newestFirst : List Byte)
    (read : List Token) (cs : List Char) :
    lexChars (text ++ doubleQuote :: cs) { mode := .inText newestFirst, tokens := read } =
      lexChars cs { mode := .between,
                    tokens := .text (newestFirst.reverse ++ text.map fun c => BitVec.ofNat 8 c.toNat) :: read } := by
  induction text generalizing newestFirst with
  | nil => simp [lexChars, lexStep]
  | cons c rest ih =>
    obtain ⟨⟨hascii, hquote⟩, hrest⟩ := List.forall_mem_cons.1 h
    have hc : lexStep { mode := .inText newestFirst, tokens := read } c =
        some { mode := .inText (BitVec.ofNat 8 c.toNat :: newestFirst), tokens := read } := by
      simp [lexStep, asciiByte, hascii, hquote]
    rw [List.cons_append, lexChars_cons hc, ih hrest]
    simp

/-- A quoted text is its ASCII bytes without a terminator (30_encoding.md R79). -/
theorem lexRest_text (read : List Token) {text : List Char} (h : ∀ c ∈ text, c.toNat < 128 ∧ c ≠ doubleQuote)
    (cs : List Char) : lexRest read (doubleQuote :: (text ++ doubleQuote :: cs)) =
      lexRest (.text (text.map fun c => BitVec.ofNat 8 c.toNat) :: read) cs := by
  have hopen : lexChars (doubleQuote :: (text ++ doubleQuote :: cs)) { mode := .between, tokens := read } =
      lexChars (text ++ doubleQuote :: cs) { mode := .inText [], tokens := read } := rfl
  rw [lexRest, hopen, lexChars_text h]
  rfl

theorem lexChars_comment {remark : List Char} (h : ∀ c ∈ remark, c.toNat < 128 ∧ c.toNat ≠ 10 ∧ c.toNat ≠ 13)
    (read : List Token) : lexChars remark { mode := .comment, tokens := read } = some { mode := .comment, tokens := read } := by
  induction remark with
  | nil => rfl
  | cons c rest ih =>
    obtain ⟨⟨hascii, hlf, hcr⟩, hrest⟩ := List.forall_mem_cons.1 h
    have hc : lexStep { mode := .comment, tokens := read } c = some { mode := .comment, tokens := read } := by
      simp [lexStep, isLineEnd, asciiByte, hascii, hlf, hcr]
    rw [lexChars_cons hc, ih hrest]

theorem lexRest_comment (read : List Token) {remark : List Char}
    (h : ∀ c ∈ remark, c.toNat < 128 ∧ c.toNat ≠ 10 ∧ c.toNat ≠ 13) :
    lexRest read (semicolon :: remark) = some read.reverse := by
  have hopen : lexChars (semicolon :: remark) { mode := .between, tokens := read } =
      lexChars remark { mode := .comment, tokens := read } := rfl
  rw [lexRest, hopen, lexChars_comment h]
  rfl

/-! ## Words -/

/-- A run of letters and digits that is a token of the line. -/
abbrev Spells (w : List Char) (t : Token) : Prop :=
  w.all isWordChar = true ∧ wordToken w = some t

/-- The characters do not go on with a word. -/
def EndsWord (cs : List Char) : Prop :=
  ∀ c ∈ cs.head?, isWordChar c = false

theorem endsWord_nil : EndsWord [] := by simp [EndsWord]

theorem endsWord_space (cs : List Char) : EndsWord (' ' :: cs) := by
  rintro c ⟨⟩
  decide

theorem endsWord_comma (cs : List Char) : EndsWord (',' :: cs) := by
  rintro c ⟨⟩
  decide

theorem lexBetween_wordChar (read : List Token) {c : Char} (h : isWordChar c = true) :
    lexBetween read c = some { mode := .inWord [c], tokens := read } := by
  have hne : ∀ d : Char, isWordChar d = false → c ≠ d := by
    rintro d hd rfl
    rw [h] at hd
    cases hd
  have hblank : isBlank c = false := by
    simp only [isWordChar, decide_eq_true_eq] at h
    simp [isBlank, isLineEnd]
    omega
  simp [lexBetween, h, hblank, hne ',' (by decide), hne semicolon (by decide), hne doubleQuote (by decide),
    hne singleQuote (by decide)]

theorem lexChars_inWord {w : List Char} (h : w.all isWordChar = true) (newestFirst : List Char) (read : List Token) :
    lexChars w { mode := .inWord newestFirst, tokens := read } =
      some { mode := .inWord (w.reverse ++ newestFirst), tokens := read } := by
  induction w generalizing newestFirst with
  | nil => rfl
  | cons c rest ih =>
    obtain ⟨hc, hrest⟩ : isWordChar c = true ∧ rest.all isWordChar = true := by simpa using h
    have hstep : lexStep { mode := .inWord newestFirst, tokens := read } c =
        some { mode := .inWord (c :: newestFirst), tokens := read } := by
      simp [lexStep, hc]
    rw [lexChars_cons hstep, ih hrest]
    simp

/-- A word becomes its token at the next character that is not of it, and at the end of the line. -/
theorem lexRest_word (read : List Token) {w : List Char} {t : Token} (h : Spells w t) {cs : List Char} (hcs : EndsWord cs) :
    lexRest read (w ++ cs) = lexRest (t :: read) cs := by
  obtain ⟨hall, htoken⟩ := h
  have hword : lexChars w { mode := .between, tokens := read } = some { mode := .inWord w.reverse, tokens := read } := by
    cases w with
    | nil => cases htoken
    | cons c rest =>
      obtain ⟨hc, hrest⟩ : isWordChar c = true ∧ rest.all isWordChar = true := by simpa using hall
      have hfirst : lexStep { mode := .between, tokens := read } c = some { mode := .inWord [c], tokens := read } :=
        lexBetween_wordChar read hc
      rw [lexChars_cons hfirst, lexChars_inWord hrest, List.reverse_cons]
  rw [lexRest, lexChars_append hword]
  cases cs with
  | nil => simp [lexChars, Lexer.finish, htoken]
  | cons c rest =>
    have hc : isWordChar c = false := hcs c rfl
    have hstep : lexStep { mode := .inWord w.reverse, tokens := read } c = lexStep { mode := .between, tokens := t :: read } c := by
      simp [lexStep, hc, htoken]
    rw [lexRest, lexChars, hstep, ← lexChars]

theorem spells_printByte (b : Byte) : Spells (printByte b) (.byte b) := by
  revert b
  decide

theorem spells_decimal (b : Byte) : Spells (Nat.toDigits 10 b.toNat) (.byte b) := by
  revert b
  decide

theorem lexRest_lastWord (read : List Token) {w : List Char} {t : Token} (h : Spells w t) :
    lexRest read w = some (t :: read).reverse := by
  rw [← List.append_nil w, lexRest_word read h endsWord_nil, lexRest_nil]

/-- A name, a space, and the rest of the line. -/
theorem lexRest_name_space {m : List Char} (h : Spells m (.name m)) (cs : List Char) :
    lexRest [] (m ++ ' ' :: cs) = lexRest [.name m] cs := by
  rw [lexRest_word [] h (endsWord_space cs), lexRest_space]

/-! ## Commands -/

/-- The tokens of a printed command. -/
def commandTokens : Instr → List Token
  | .nop => [.name nameNop]
  | .kpush b => [.name nameKpush, .byte b]
  | .ksched => [.name nameKsched]
  | .crypt b => [.name nameCrypt, .byte b]
  | .fin => [.name nameFin]
  | .rst => [.name nameRst]

theorem lineOfTokens_kpush (b : Byte) : lineOfTokens [.name nameKpush, .byte b] = some (some (.command (.kpush b))) := rfl

theorem lineOfTokens_crypt (b : Byte) : lineOfTokens [.name nameCrypt, .byte b] = some (some (.command (.crypt b))) := rfl

theorem lineOfTokens_commandTokens (i : Instr) : lineOfTokens (commandTokens i) = some (some (.command i)) := by
  cases i with
  | kpush b => exact lineOfTokens_kpush b
  | crypt b => exact lineOfTokens_crypt b
  | nop | ksched | fin | rst => rfl

theorem lexRest_name_byte {m : List Char} (h : Spells m (.name m)) (b : Byte) {cs : List Char} (hcs : EndsWord cs) :
    lexRest [] (m ++ [' '] ++ printByte b ++ cs) = lexRest [.byte b, .name m] cs := by
  rw [List.append_assoc, List.append_assoc, List.singleton_append, lexRest_name_space h,
    lexRest_word _ (spells_printByte b) hcs]

/-- A printed command, before anything that does not go on with its last word. -/
theorem lexRest_printCommand (i : Instr) {cs : List Char} (hcs : EndsWord cs) :
    lexRest [] (printCommand i ++ cs) = lexRest (commandTokens i).reverse cs := by
  cases i with
  | nop => exact lexRest_word [] (by decide) hcs
  | kpush b => exact lexRest_name_byte (by decide) b hcs
  | ksched => exact lexRest_word [] (by decide) hcs
  | crypt b => exact lexRest_name_byte (by decide) b hcs
  | fin => exact lexRest_word [] (by decide) hcs
  | rst => exact lexRest_word [] (by decide) hcs

theorem readLine_printCommand (i : Instr) : readLine (printCommand i) = some (some (.command i)) := by
  have htokens : lexRest [] (printCommand i) = some (commandTokens i) := by
    rw [← List.append_nil (printCommand i), lexRest_printCommand i endsWord_nil, lexRest_nil, List.reverse_reverse]
  rw [readLine_of_lexRest htokens, lineOfTokens_commandTokens]

theorem readLine_printCommand_comment (i : Instr) {remark : List Char}
    (h : ∀ c ∈ remark, c.toNat < 128 ∧ c.toNat ≠ 10 ∧ c.toNat ≠ 13) :
    readLine (printCommand i ++ [' ', semicolon] ++ remark) = some (some (.command i)) := by
  have htokens : lexRest [] (printCommand i ++ [' ', semicolon] ++ remark) = some (commandTokens i) := by
    rw [List.append_assoc, List.cons_append, List.singleton_append, lexRest_printCommand i (endsWord_space _),
      lexRest_space, lexRest_comment _ h, List.reverse_reverse]
  rw [readLine_of_lexRest htokens, lineOfTokens_commandTokens]

theorem lexRest_name_decimal {m : List Char} (h : Spells m (.name m)) (b : Byte) :
    lexRest [] (m ++ [' '] ++ Nat.toDigits 10 b.toNat) = some [.name m, .byte b] := by
  rw [List.append_assoc, List.singleton_append, lexRest_name_space h, lexRest_lastWord _ (spells_decimal b)]
  rfl

theorem lexRest_name_quoted {m : List Char} (h : Spells m (.name m)) {c : Char} (hlow : 32 ≤ c.toNat)
    (hhigh : c.toNat < 127) :
    lexRest [] (m ++ [' ', singleQuote, c, singleQuote]) = some [.name m, .byte (BitVec.ofNat 8 c.toNat)] := by
  rw [lexRest_name_space h, lexRest_quoted _ hlow hhigh]
  rfl

theorem printWord_encode (i : Instr) : printWord (encode i) = hexByte (opcodeOf i) ++ hexByte (operandOf i) := by
  rw [printWord, encode, opField_wordOf, immField_wordOf]

/-- Settles O6: the tokens of each form of line, and the line that they spell. -/
theorem printedCommandsReadBack : Obligations.PrintedCommandsReadBack := by
  have hkpush : Spells nameKpush (.name nameKpush) := by decide
  have hcrypt : Spells nameCrypt (.name nameCrypt) := by decide
  refine ⟨fun i => ⟨readLine_printCommand i, printWord_encode i⟩, fun i remark => readLine_printCommand_comment i,
    fun remark h => readLine_of_lexRest (lexRest_comment [] h), fun b => ⟨?_, ?_⟩, fun c hlow hhigh => ⟨?_, ?_⟩⟩
  · rw [readLine_of_lexRest (lexRest_name_decimal hkpush b), lineOfTokens_kpush]
  · rw [readLine_of_lexRest (lexRest_name_decimal hcrypt b), lineOfTokens_crypt]
  · rw [readLine_of_lexRest (lexRest_name_quoted hkpush hlow hhigh), lineOfTokens_kpush]
  · rw [readLine_of_lexRest (lexRest_name_quoted hcrypt hlow hhigh), lineOfTokens_crypt]

/-! ## Pseudo-commands -/

/-- The tokens of a list of bytes with commas between. -/
def byteTokens : List Byte → List Token
  | [] => []
  | [b] => [.byte b]
  | b :: rest => .byte b :: .comma :: byteTokens rest

theorem byteTokens_cons_cons (b b' : Byte) (rest : List Byte) :
    byteTokens (b :: b' :: rest) = .byte b :: .comma :: byteTokens (b' :: rest) := rfl

theorem printBytes_cons_cons (b b' : Byte) (rest : List Byte) :
    printBytes (b :: b' :: rest) = printByte b ++ ',' :: ' ' :: printBytes (b' :: rest) := by
  rw [printBytes, List.append_assoc]
  · rfl
  · simp

theorem byteList_byteTokens (b : Byte) (rest : List Byte) : byteList (byteTokens (b :: rest)) = some (b :: rest) := by
  induction rest generalizing b with
  | nil => rfl
  | cons b' rest ih => rw [byteTokens_cons_cons, byteList, ih]; rfl

theorem lexRest_printBytes (read : List Token) (b : Byte) (rest : List Byte) :
    lexRest read (printBytes (b :: rest)) = some (read.reverse ++ byteTokens (b :: rest)) := by
  induction rest generalizing b read with
  | nil =>
    rw [printBytes, lexRest_lastWord read (spells_printByte b), List.reverse_cons]
    rfl
  | cons b' rest ih =>
    rw [printBytes_cons_cons, lexRest_word read (spells_printByte b) (endsWord_comma _), lexRest_comma, lexRest_space, ih,
      byteTokens_cons_cons]
    simp

/-- KEY and MSG: a name with a list of bytes behind it is a line of these bytes. -/
structure TakesBytes (m : List Char) (line : List Byte → ListingLine) : Prop where
  spells : Spells m (.name m)
  notTransform : m ≠ nameTransform
  ofByte : ∀ b, lineOfByte m b = some (line [b])
  ofBytes : ∀ bytes, lineOfBytes m bytes = some (line bytes)

theorem takesBytes_key : TakesBytes nameKey .key := ⟨by decide, by decide, fun _ => rfl, fun _ => rfl⟩

theorem takesBytes_msg : TakesBytes nameMsg .msg := ⟨by decide, by decide, fun _ => rfl, fun _ => rfl⟩

namespace TakesBytes

variable {m : List Char} {line : List Byte → ListingLine}

theorem lineOfTokens_byteTokens (hm : TakesBytes m line) (b : Byte) (rest : List Byte) :
    lineOfTokens (.name m :: byteTokens (b :: rest)) = some (some (line (b :: rest))) := by
  cases rest with
  | nil =>
    rw [byteTokens, lineOfTokens, hm.ofByte, Option.map_some]
  | cons b' rest =>
    have hbytes := byteList_byteTokens b (b' :: rest)
    rw [byteTokens_cons_cons] at hbytes ⊢
    simp only [lineOfTokens, hm.notTransform, if_false, hbytes, hm.ofBytes, Option.map_some]

theorem readLine_bytes (hm : TakesBytes m line) {bytes : List Byte} (h : bytes ≠ []) :
    readLine (m ++ [' '] ++ printBytes bytes) = some (some (line bytes)) := by
  obtain ⟨b, rest, rfl⟩ := List.exists_cons_of_ne_nil h
  have htokens : lexRest [] (m ++ [' '] ++ printBytes (b :: rest)) = some (.name m :: byteTokens (b :: rest)) := by
    rw [List.append_assoc, List.singleton_append, lexRest_name_space hm.spells, lexRest_printBytes]
    rfl
  rw [readLine_of_lexRest htokens, hm.lineOfTokens_byteTokens]

theorem readLine_text (hm : TakesBytes m line) {text : List Char} (h : ∀ c ∈ text, c.toNat < 128 ∧ c ≠ doubleQuote) :
    readLine (m ++ [' ', doubleQuote] ++ text ++ [doubleQuote]) =
      some (some (line (text.map fun c => BitVec.ofNat 8 c.toNat))) := by
  have htokens : lexRest [] (m ++ [' ', doubleQuote] ++ text ++ [doubleQuote]) =
      some [.name m, .text (text.map fun c => BitVec.ofNat 8 c.toNat)] := by
    rw [List.append_assoc, List.append_assoc, List.cons_append, List.singleton_append, lexRest_name_space hm.spells,
      lexRest_text _ h]
    rfl
  rw [readLine_of_lexRest htokens, lineOfTokens, hm.ofBytes, Option.map_some]

end TakesBytes

theorem lineOfTokens_transform (callKey message : List Byte) :
    lineOfTokens [.name nameTransform, .text callKey, .comma, .text message] = some (some (.transform callKey message)) := rfl

theorem readLine_transform {text text' : List Char} (h : ∀ c ∈ text, c.toNat < 128 ∧ c ≠ doubleQuote)
    (h' : ∀ c ∈ text', c.toNat < 128 ∧ c ≠ doubleQuote) :
    readLine (nameTransform ++ [' ', doubleQuote] ++ text ++ [doubleQuote, ',', ' ', doubleQuote] ++ text' ++ [doubleQuote]) =
      some (some (.transform (text.map fun c => BitVec.ofNat 8 c.toNat) (text'.map fun c => BitVec.ofNat 8 c.toNat))) := by
  have hname : Spells nameTransform (.name nameTransform) := by decide
  have htokens : lexRest [] (nameTransform ++ ' ' :: doubleQuote ::
      (text ++ doubleQuote :: ',' :: ' ' :: doubleQuote :: (text' ++ [doubleQuote]))) =
      some [.name nameTransform, .text (text.map fun c => BitVec.ofNat 8 c.toNat), .comma,
        .text (text'.map fun c => BitVec.ofNat 8 c.toNat)] := by
    rw [lexRest_name_space hname, lexRest_text _ h, lexRest_comma, lexRest_space, lexRest_text _ h']
    rfl
  have hline := (readLine_of_lexRest htokens).trans (lineOfTokens_transform _ _)
  simpa using hline

/-- No reader comes past a character outside ASCII (30_encoding.md R79). -/
theorem lexChars_nonAscii {cs : List Char} (h : ∃ c ∈ cs, 128 ≤ c.toNat) (l : Lexer) : lexChars cs l = none := by
  induction cs generalizing l with
  | nil => simp at h
  | cons d rest ih =>
    rw [List.exists_mem_cons_iff] at h
    cases hd : lexStep l d with
    | none => rw [lexChars, hd]
    | some l' =>
      rw [lexChars_cons hd]
      refine ih (h.resolve_left fun hascii => ?_) l'
      rw [lexStep_nonAscii l hascii] at hd
      cases hd

theorem readLine_nonAscii {cs : List Char} (h : ∃ c ∈ cs, 128 ≤ c.toNat) : readLine cs = none := by
  rw [readLine_eq, lexRest, lexChars_nonAscii h]
  rfl

/-- Settles O5: the expansions are those of the definition, and each form of line is read token by token. -/
theorem pseudoCommandsExpandToTheirBytes : Obligations.PseudoCommandsExpandToTheirBytes :=
  ⟨fun _ _ => ⟨rfl, rfl, rfl⟩, rfl, rfl,
    fun _ h => ⟨takesBytes_key.readLine_bytes h, takesBytes_msg.readLine_bytes h⟩,
    fun _ h => ⟨takesBytes_key.readLine_text h, takesBytes_msg.readLine_text h⟩,
    fun _ _ => readLine_transform, fun _ => readLine_nonAscii⟩

end Sys2Proof.Machine
end
